-- ==== Sys2Proof/Word.lean ====
section
/-! DEFINITION. The word types of the block (00_scope.md R10; 10_state.md R21, R29). -/

namespace Sys2Proof

/-- A register of the window, `CRC` among them, is 16 bits wide (R21, R23); `CRC_WIDTH` is the field `Literals.crcWidth`. -/
abbrev Word := BitVec 16

/-- One payload byte, operand byte or memory byte. -/
abbrev Byte := BitVec 8

/-- `CURSOR` and `BSTART` are 32-bit internal registers (R29, R30). -/
abbrev Cursor := BitVec 32

/-- A byte offset into the 32-byte register window (R21). -/
abbrev Offset := BitVec 5

end Sys2Proof
end

