-- ==== Sys2Proof/Machine/Operands.lean ====
section
/-! DEFINITION. The fields of a command word and the operand forms (30_encoding.md R70, R71). -/

namespace Sys2Proof.Machine

/-- The three operand forms of R71. -/
inductive Form where
  | none
  | imm
  | count
  deriving DecidableEq, Repr

/-- `OP`, bits 7:0 of a command word (R70). -/
def opField (w : Word) : Byte := w.extractLsb' 0 8

/-- `ARG`, bits 15:8 of a command word (R70). -/
def argField (w : Word) : Byte := w.extractLsb' 8 8

/-- The command word with the given `ARG` and `OP`: `ARG` in the high byte (R70). -/
def commandWord (arg op : Byte) : Word := arg ++ op

/-- The count field `ARG[4:0]` of form C (R71). -/
def countField (arg : Byte) : BitVec 5 := arg.extractLsb' 0 5

/-- The must-be-zero field `ARG[7:5]` of form C (R71). -/
def countZeroField (arg : Byte) : BitVec 3 := arg.extractLsb' 5 3

/-- The `ARG` byte of a form C command with count `n`: `ARG[7:5]` zero (R71). -/
def countArg (n : BitVec 5) : Byte := n.setWidth 8

/-- Whether `ARG` has the must-be-zero bits of its form zero: the mask and match of R72. -/
def argMatches : Form → Byte → Bool
  | .none, arg => arg == 0
  | .imm, _ => true
  | .count, arg => countZeroField arg == 0

/-- The legal counts of form C: 1 to 16 (R71). -/
def countLegal (n : BitVec 5) : Bool := 1 ≤ n.toNat && n.toNat ≤ 16

end Sys2Proof.Machine
end

