-- ==== Sys2Proof/Syntax.lean ====
section
/-! DEFINITION. The instructions: one constructor for each row of spec/opcode_table.json (30_encoding.md R72, R74;
40_checksum.md R96). -/

namespace Sys2Proof

/-- The rows of the opcode table. Each docstring names the row's rule. -/
inductive Instr where
  /-- `nop` (R160). -/
  | nop
  /-- `crc.init` (R94). -/
  | crcInit
  /-- `crc.byte imm8` (R95). -/
  | crcByte (b : Byte)
  /-- `pulse` (R113). -/
  | pulse
  /-- `readp n` (R114). The count field has 5 bits; a count outside 1 to 16 matches the row and is refused by its operand
  check (R72, R73). -/
  | readp (n : BitVec 5)
  /-- `reads n` (R115). -/
  | reads (n : BitVec 5)
  /-- `step` (R131). -/
  | step
  /-- `clrerr` (R161). -/
  | clrerr
  /-- The host write of `v` to `CRC` (R96), which is no command word. -/
  | wrCrc (v : Word)
  /-- A word of the reserved opcode space (R74). -/
  | reserved (op arg : Byte)
  deriving DecidableEq, Repr

end Sys2Proof
end

