-- ==== Sys2Proof/WellFormed.lean ====
section
/-! DEFINITION. Which instruction terms are executable rows of the opcode table (30_encoding.md R71, R74). -/

namespace Sys2Proof

/-- An instruction is well formed when its operands are legal for its row: a count of form C is 1 to 16 (R71), and a
reserved opcode is 0x08 or above (R74). -/
def Instr.wellFormed : Instr → Bool
  | .nop => true
  | .crcInit => true
  | .crcByte _ => true
  | .pulse => true
  | .readp n => Machine.countLegal n
  | .reads n => Machine.countLegal n
  | .step => true
  | .clrerr => true
  | .wrCrc _ => true
  | .reserved op _ => 8 ≤ op.toNat

end Sys2Proof
end

