-- ==== Sys2Proof/Decode.lean ====
section
/-! DEFINITION. From the value and the offset of a host write to the instruction it is, and back (30_encoding.md R70 to R74,
20_memory.md R55). -/

namespace Sys2Proof

/-- Why a 16-bit host write is no row of the opcode table. -/
inductive Reject where
  /-- `ARG` breaks the must-be-zero bits of its form (R71): command error 2. -/
  | badArg
  /-- An odd offset (R55): command error 4. -/
  | oddOffset
  /-- An offset above 0x16 (R55): command error 4. -/
  | unmappedOffset
  /-- A register the host cannot write (R21, R55): command error 4. -/
  | readOnly
  deriving DecidableEq, Repr

/-- The row `i` if `ARG` matches its form, else the operand error (R73). -/
def decodeForm (f : Machine.Form) (arg : Byte) (i : Instr) : Except Reject Instr :=
  if Machine.argMatches f arg then .ok i else .error .badArg

/-- The row of the opcode map (R72) that opcode `op` with operand byte `arg` is; opcodes 0x08 to 0xFF are reserved (R74). -/
def decodeOp (op arg : Byte) : Except Reject Instr :=
  match op.toNat with
  | 0 => decodeForm .none arg .nop
  | 1 => decodeForm .none arg .crcInit
  | 2 => decodeForm .imm arg (.crcByte arg)
  | 3 => decodeForm .none arg .pulse
  | 4 => decodeForm .count arg (.readp (Machine.countField arg))
  | 5 => decodeForm .count arg (.reads (Machine.countField arg))
  | 6 => decodeForm .none arg .step
  | 7 => decodeForm .none arg .clrerr
  | _ => .ok (.reserved op arg)

/-- Decoding of a word written to `CMD` (R73). It depends on no state (R75). -/
def decodeCommand (w : Word) : Except Reject Instr :=
  decodeOp (Machine.opField w) (Machine.argField w)

/-- Decoding of a 16-bit host write of `v` at window offset `off` (R55): a command at `CMD`, the seed write at `CRC`, else a
refusal by name. -/
def decodeWrite (off : Offset) (v : Word) : Except Reject Instr :=
  if off.getLsbD 0 then .error .oddOffset
  else if 0x16 < off.toNat then .error .unmappedOffset
  else if off = 0x00 then decodeCommand v
  else if off = 0x04 then .ok (.wrCrc v)
  else .error .readOnly

/-- The host write that is instruction `i` (R72, R74, R96): the window offset and the value. -/
def encode : Instr → Offset × Word
  | .nop => (0x00, Machine.commandWord 0x00 0x00)
  | .crcInit => (0x00, Machine.commandWord 0x00 0x01)
  | .crcByte b => (0x00, Machine.commandWord b 0x02)
  | .pulse => (0x00, Machine.commandWord 0x00 0x03)
  | .readp n => (0x00, Machine.commandWord (Machine.countArg n) 0x04)
  | .reads n => (0x00, Machine.commandWord (Machine.countArg n) 0x05)
  | .step => (0x00, Machine.commandWord 0x00 0x06)
  | .clrerr => (0x00, Machine.commandWord 0x00 0x07)
  | .wrCrc v => (0x04, v)
  | .reserved op arg => (0x00, Machine.commandWord arg op)

/-- The low `nbits` bits of `w` as a host write: the 16 value bits the opcode table numbers, and above them the window offset,
which is 0 (`CMD`) for every row whose bits the table gives (log 12). -/
def tableWrite (nbits w : Nat) : Offset × Word :=
  let bits := w % 2 ^ nbits
  (BitVec.ofNat 5 (bits / 65536), BitVec.ofNat 16 bits)

/-- The instruction the decoder reads from an instruction whose bits are `w`, numbered as the opcode table numbers them; no
window offset lies above bit 20 (log 12). -/
def decodeTableWord (nbits w : Nat) : Option Instr :=
  if 2 ^ 21 ≤ w % 2 ^ nbits then none
  else match decodeWrite (tableWrite nbits w).1 (tableWrite nbits w).2 with
  | .ok i => some i
  | .error _ => none

end Sys2Proof
end

