-- ==== Sys2Proof/Config.lean ====
section
/-! DEFINITION. The parameters of the block (00_scope.md R7, R8), the vocabulary of its ports (10_state.md R39, R40), and
the free values the environment supplies (R40). -/

namespace Sys2Proof

/-- The two link endpoints (41_link.md R110). -/
inductive Endpoint where
  | primary
  | secondary
  deriving DecidableEq, Repr

/-- The level of an output line. -/
inductive Level where
  | low
  | high
  deriving DecidableEq, Repr

/-- The output events of the block (R40), in the spec's names; addresses are destination byte addresses. -/
inductive Event where
  | pulse
  | rdP (b : Bool)
  | rdS (b : Bool)
  | weSet
  | weClr
  | memW (a : Nat) (v : Byte)
  | memR (a : Nat) (v : Byte)
  deriving DecidableEq, Repr

/-- `DEST_ACCEPTS` (R8, D26): what the destination memory does with a write. -/
inductive DestAccepts where
  | storeAlways
  | storeIfLatched
  | any
  deriving DecidableEq, Repr, Inhabited

/-- `CRC_SOURCE` (R8, D11): over which bytes the local checksum is taken. -/
inductive CrcSource where
  | readback
  | received
  deriving DecidableEq, Repr

/-- The constants of R7 and the table of R91 (I2), one field each, with the document's value as the default (I1); `crcPoly` is
`CRC_POLY_REFL`. `table` is the contents of `T` where they are given outright; by default they are made from `crcPoly` (R91,
`Literals.rom`). -/
structure Literals where
  blockBytes : Nat := 64
  crcWidth : Nat := 16
  crcInit : Word := 0xC0DE
  crcPoly : Word := 0xA001
  crcTableEntries : Nat := 256
  table : Option Machine.CrcTable := none
  destSize : Nat := 524288
  nBlocks : Nat := 8192
  weAssertCount : Nat := 15
  pollBits : Nat := 16
  payloadReadBits : Nat := 8
  checksumReadBits : Nat := 16
  deriving DecidableEq, Repr

/-- The document's values (R7). -/
def Literals.document : Literals := {}

/-- The contents of the table ROM `T` (10_state.md R36, 40_checksum.md R91). -/
def Literals.rom (l : Literals) : Machine.CrcTable := Machine.crcRom l.table l.crcPoly l.crcTableEntries

/-- The parameters R8 leaves OPEN. -/
structure Platform where
  startPattern : Word
  bankSize : Nat
  baseBank : Nat
  addrWidth : Nat
  regBase : Nat
  destAccepts : DestAccepts
  deriving DecidableEq, Repr, Inhabited

/-- `DEST_BASE = BASE_BANK * BANK_SIZE` (R8). -/
def Platform.destBase (p : Platform) : Nat := p.baseBank * p.bankSize

/-- The constraints of R8 on the OPEN parameters: the bank size, the address width, the destination window inside the address
space, and `INDEX` fitting 16 bits. -/
abbrev Platform.Fits (p : Platform) (l : Literals) : Prop :=
  64 ≤ p.bankSize ∧ p.bankSize = 2 ^ p.bankSize.log2 ∧ 1 ≤ p.addrWidth ∧ p.addrWidth ≤ 32 ∧
    p.destBase + l.destSize ≤ 2 ^ p.addrWidth ∧ l.nBlocks ≤ 65536

/-- What the constants of R7 must satisfy for the rules to have a meaning when one of them is changed: `N_BLOCKS` is
`DEST_SIZE / BLOCK_BYTES` (R7); every read count lies in the range of R112; `CRC_WIDTH` holds the byte index of R90 and fits the
16-bit register of R23, the initial value and the polynomial fit `CRC_WIDTH`, and `T` has `CRC_TABLE_ENTRIES` entries, one for every
index of R90. DEDUCED (log 5, log 28); the document's values satisfy it. -/
abbrev Literals.Sound (l : Literals) : Prop :=
  0 < l.blockBytes ∧ 0 < l.nBlocks ∧ l.destSize = l.nBlocks * l.blockBytes ∧
    1 ≤ l.pollBits ∧ l.pollBits ≤ 16 ∧ 1 ≤ l.payloadReadBits ∧ l.payloadReadBits ≤ 16 ∧
    1 ≤ l.checksumReadBits ∧ l.checksumReadBits ≤ 16 ∧
    8 ≤ l.crcWidth ∧ l.crcWidth ≤ 16 ∧ l.crcInit.toNat < 2 ^ l.crcWidth ∧ l.crcPoly.toNat < 2 ^ l.crcWidth ∧
    256 ≤ l.crcTableEntries ∧ l.rom.length = l.crcTableEntries

/-- A configuration. A choice that breaks a constraint of R8 has no meaning (R8, R12): it carries no proof `ok` and so cannot be
built. `primaryPollLatch` and `crcSource` default to the decided values (D9, D11). -/
structure Config where
  lit : Literals := {}
  plat : Platform
  primaryPollLatch : Bool := true
  crcSource : CrcSource := .readback
  sound : lit.Sound
  fits : plat.Fits lit
  deriving DecidableEq, Repr

theorem Literals.document_sound : Literals.document.Sound := by decide +kernel

/-- The OPEN parameters of an actual platform (R8): free values, which nothing in the model fixes (log 4). -/
opaque Config.openParameters : Platform

/-- The example parameters of R9, which the vectors of 95_test_vectors.md use. R9 leaves `REG_BASE` unused and gives it no value:
`regBase := 0` is the model's, a DESIGN CHOICE (log 4), and no statement rests on it. -/
def Platform.example9 : Platform :=
  { startPattern := 0x1000, bankSize := 0x10000, baseBank := 0x10, addrWidth := 24, regBase := 0,
    destAccepts := .storeAlways }

theorem Platform.example9_fits : Platform.example9.Fits Literals.document := by decide

/-- The example configuration of R9. -/
def Config.example9 : Config :=
  { lit := Literals.document, plat := Platform.example9, sound := Literals.document_sound, fits := Platform.example9_fits }

/-- The free OPEN parameters where they meet the constraints of R8. Others have no meaning (R8), and the example of R9, with the
model's `REG_BASE` 0, stands in for them: a DESIGN CHOICE, on which no statement rests (log 4). -/
def Config.platformParameters : Platform :=
  if Config.openParameters.Fits Literals.document then Config.openParameters else Platform.example9

theorem Config.platformParameters_fits : Config.platformParameters.Fits Literals.document := by
  unfold Config.platformParameters
  split
  · assumption
  · exact Platform.example9_fits

/-- The configuration of the machine after reset: the document's constants, the decided choices, free OPEN parameters. -/
def Config.platform : Config :=
  { lit := Literals.document, plat := Config.platformParameters, sound := Literals.document_sound,
    fits := Config.platformParameters_fits }

/-- The bit a strobed read of an endpoint returns: a draw of the environment that may depend on the whole trace so far (R40).
Free (log 3). -/
opaque Config.lineDraw : Endpoint → List Event → Bool

/-- The byte the destination memory answers to a read at an address where no stored value is known: a draw (R59). Free (log 6). -/
opaque Config.memoryDraw : Nat → List Event → Byte

/-- The state of the external write-enable flip-flop after an assertion or a de-assertion: a draw (D26, I5). Free (log 7). -/
opaque Config.latchDraw : List Event → Bool

end Sys2Proof
end

