-- ==== Sys2Proof/Machine/State.lean ====
section
/-! DEFINITION. The state of the block and of what stands around it, as plain data (10_state.md), and its value after reset. -/

namespace Sys2Proof.Machine

/-- The session mode (R31). -/
inductive Mode where
  | idle
  | transferring
  deriving DecidableEq, Repr

/-- `STATUS.LAST` (R22, R33). -/
inductive LastResult where
  | none
  | accepted
  | retry
  | complete
  deriving DecidableEq, Repr

/-- The command errors, codes 1 to 4 of 60_exceptions.md R171. -/
inductive CmdError where
  | reservedOp
  | badArg
  | linkBusy
  | badAccess
  deriving DecidableEq, Repr

/-- The registers of the block (R21, R22). `CMD` holds nothing (reads return 0), `STATUS.ERR` and the reserved bits are computed
(`statusWord`), and `errc = none` is code 0, no error (R35). -/
structure Regs where
  mode : Mode
  we : Bool
  last : LastResult
  started : Bool
  errc : Option CmdError
  crc : Word
  data : Word
  poll : Word
  index : Word
  rxcrc : Word
  lcrc : Word
  cursor : Cursor
  bstart : Cursor
  deriving DecidableEq, Repr

/-- The registers after reset (R41). -/
def Regs.reset (l : Literals) : Regs :=
  { mode := .idle, we := false, last := .none, started := false, errc := none, crc := l.crcInit, data := 0, poll := 0,
    index := 0, rxcrc := 0, lcrc := 0, cursor := 0, bstart := 0 }

/-- The destination memory: the bytes whose stored value is known, addresses strictly rising (`Memory.wf`). An address that is
not listed answers a draw (R59; log 6). -/
abbrev Memory := List Host.Cell

/-- What stands outside the block (R38): the event trace (R40), the level of `STB_P`, the external write-enable flip-flop, the
destination memory, and the draws the environment has already chosen for the two lines, the memory port and the flip-flop. Where
such a list is empty the draw is the free value of Config (log 3). -/
structure Env where
  trace : List Event
  stbP : Level
  latch : Bool
  mem : Memory
  nextP : List Bool
  nextS : List Bool
  nextM : List Byte
  nextL : List Bool
  deriving DecidableEq, Repr

/-- The environment at power-on (R41, D17): strobe low, flip-flop disabled, nothing known of the memory, no draw chosen. -/
def Env.reset : Env :=
  { trace := [], stbP := .low, latch := false, mem := [], nextP := [], nextS := [], nextM := [], nextL := [] }

/-- A host access of the register window (20_memory.md R55): its window offset, its width in bits, and the value written. -/
inductive HostAccess where
  | read (off : Offset) (width : Nat)
  | write (off : Offset) (width : Nat) (value : Word)
  deriving DecidableEq, Repr

/-- What can reach the block from outside: an access, a device reset between accesses, or a device reset that cuts an access
short (70_reset_and_hazards.md R190; log 9). -/
inductive HostInput where
  | access (a : HostAccess)
  | reset
  | cutShort (a : HostAccess)
  deriving DecidableEq, Repr

/-- The machine: the block's registers, its environment, the host inputs still to come, the answer to the latest host read
(log 14), and the configuration, which no step changes. -/
structure State where
  regs : Regs
  env : Env
  host : List HostInput
  reply : Option Word
  cfg : Config
  deriving DecidableEq, Repr

/-- The block never stops with a fault: "None of the source's operations fault" (00_scope.md R12), and every misuse is a command
error, after which the block goes on (60_exceptions.md R174). So there is no constructor (log 22). -/
inductive Fault where
  deriving DecidableEq, Repr

/-- Why the model gives no meaning. -/
inductive Refusal where
  /-- An instruction without a meaning in the model; no arm of `exec` raises it. Safe. -/
  | notModelled (mnemonic : String)
  /-- Raised by the `step` command where `INDEX` is outside `[0, N_BLOCKS)`: the spec gives no address there (93 I12, "refuse").
  Safe: no run reaches such a state. -/
  | indexOutOfRange
  /-- Raised by `State.configure` for parameters that break a constraint of R8: "the model gives it no meaning" (R12). Safe. -/
  | badConfiguration
  deriving DecidableEq, Repr

/-- The machine after reset with configuration `c`: the registers of R41, no access pending. -/
def State.resetWith (c : Config) : State :=
  { regs := Regs.reset c.lit, env := Env.reset, host := [], reply := none, cfg := c }

/-- The machine right after reset (R41, R190), with free OPEN parameters (log 4). -/
def State.reset : State := State.resetWith Config.platform

end Sys2Proof.Machine
end

