-- ==== Sys2Proof/Machine/Memory.lean ====
section
/-! DEFINITION. The destination memory as a list of known bytes in one canonical form (20_memory.md R50, R58, R59; log 6). -/

namespace Sys2Proof.Machine

/-- The canonical form: addresses strictly rising. No entry can equal what an unlisted address reads as, which is a draw. -/
def Memory.wf (m : Memory) : Bool := decide (m.Pairwise fun p q => p.1 < q.1)

/-- The byte known to stand at an address, if one is. -/
def Memory.read : Memory → Nat → Option Byte
  | [], _ => none
  | (k, v) :: m, a => if k = a then some v else Memory.read m a

/-- Store a byte. -/
def Memory.write : Memory → Nat → Byte → Memory
  | [], a, b => [(a, b)]
  | (k, v) :: m, a, b =>
    if a < k then (a, b) :: (k, v) :: m
    else if a = k then (a, b) :: m
    else (k, v) :: Memory.write m a b

/-- Forget the byte at an address: what stands there is a draw from now on. -/
def Memory.forget (m : Memory) (a : Nat) : Memory := m.filter fun c => c.1 ≠ a

end Sys2Proof.Machine
end

