-- ==== Sys2Proof/Machine/Ops.lean ====
section
/-! DEFINITION. The shared operations: the pseudocode primitives of 00_scope.md R11 over the environment, recording a command
error (60_exceptions.md R171) and clearing the record (43_control.md R161), and the named updates of the state. -/

namespace Sys2Proof.Machine

/-- The state with other registers. -/
def State.withRegs (s : State) (r : Regs) : State := { s with regs := r }

/-- The state with another environment. -/
def State.withEnv (s : State) (e : Env) : State := { s with env := e }

/-- The state with other pending host inputs. -/
def State.withHost (s : State) (h : List HostInput) : State := { s with host := h }

/-- The state with another answer to the latest host read. -/
def State.withReply (s : State) (v : Option Word) : State := { s with reply := v }

/-- `CRC <- v`. -/
def State.withCrc (s : State) (v : Word) : State := s.withRegs { s.regs with crc := v }

/-- `DATA <- v`. -/
def State.withData (s : State) (v : Word) : State := s.withRegs { s.regs with data := v }

/-- `ERRC <- c`, and with it `ERR` (R35). -/
def State.withErrc (s : State) (c : Option CmdError) : State := s.withRegs { s.regs with errc := c }

/-- Record a command error (R171): the first code stands, and nothing else changes. This is all that error entry does (R174). -/
def raiseCmdError (c : CmdError) (s : State) : State :=
  match s.regs.errc with
  | none => s.withErrc (some c)
  | some _ => s

/-- Clear the error record (R161, R175). -/
def clearCmdError (s : State) : State := s.withErrc none

/-- Append one event to the trace (R40). -/
def Env.emit (e : Env) (ev : Event) : Env := { e with trace := e.trace ++ [ev] }

/-- Drive the primary strobe line (R39). -/
def Env.driveStrobe (e : Env) (l : Level) : Env := { e with stbP := l }

/-- `Pulse()`: the strobe line high, then low, and one event (41_link.md R111). -/
def Env.pulse (e : Env) : Env := ((e.driveStrobe .high).driveStrobe .low).emit .pulse

/-- The bit the environment supplies to the next strobed read of an endpoint: a draw (R40, R116; log 3). -/
def Env.drawLine (e : Env) : Endpoint → Bool × Env
  | .primary =>
    match e.nextP with
    | b :: rest => (b, { e with nextP := rest })
    | [] => (Config.lineDraw .primary e.trace, e)
  | .secondary =>
    match e.nextS with
    | b :: rest => (b, { e with nextS := rest })
    | [] => (Config.lineDraw .secondary e.trace, e)

/-- The event of a strobed read (R40). -/
def readEvent : Endpoint → Bool → Event
  | .primary, b => .rdP b
  | .secondary, b => .rdS b

/-- `ReadBit(ep)`: one strobed read of an endpoint (R11). -/
def Env.readBit (e : Env) (ep : Endpoint) : Bool × Env :=
  let d := e.drawLine ep
  (d.1, d.2.emit (readEvent ep d.1))

/-- The loop of `ReadBits` (41_link.md R112) with `k` reads left, from bit position `i` and accumulator `v`. -/
def Env.readBitsFrom (ep : Endpoint) : Nat → Nat → Word → Env → Word × Env
  | 0, _, v, e => (v, e)
  | k + 1, i, v, e =>
    let d := e.readBit ep
    Env.readBitsFrom ep k (i + 1) (v ||| ((BitVec.ofBool d.1).setWidth 16 <<< i)) d.2

/-- `ReadBits(ep, n)`: `n` strobed reads, the bit of the first at bit 0 of the result (R112). -/
def Env.readBits (e : Env) (ep : Endpoint) (n : Nat) : Word × Env := Env.readBitsFrom ep n 0 0 e

/-- The state of the write-enable flip-flop after an assertion or a de-assertion: a draw (D26, I5, R144; log 7). -/
def Env.drawLatch (e : Env) : Env :=
  match e.nextL with
  | b :: rest => { e with latch := b, nextL := rest }
  | [] => { e with latch := Config.latchDraw e.trace }

/-- `WeSet()`: one assertion of the external write-enable latch (R11). -/
def Env.weSet (e : Env) : Env := (e.emit .weSet).drawLatch

/-- `WeClr()`: one de-assertion of the external write-enable latch (R11). -/
def Env.weClr (e : Env) : Env := (e.emit .weClr).drawLatch

/-- `k` assertions in a row (42_sequencer.md R133). -/
def Env.weSetTimes : Nat → Env → Env
  | 0, e => e
  | k + 1, e => Env.weSetTimes k e.weSet

/-- What the destination memory holds after a byte write, by `DEST_ACCEPTS` (R58, D26): it stores it, stores it only while the
flip-flop is set, or holds a byte that is a draw (log 6). -/
def Env.accept (e : Env) (d : DestAccepts) (a : Nat) (b : Byte) : Memory :=
  match d with
  | .storeAlways => e.mem.write a b
  | .storeIfLatched => if e.latch then e.mem.write a b else e.mem
  | .any => e.mem.forget a

/-- `MemWrite(a, 1, b)` (R11, R58). The write is issued whatever the state of the latch. -/
def Env.memWrite (e : Env) (d : DestAccepts) (a : Nat) (b : Byte) : Env :=
  { e.emit (.memW a b) with mem := e.accept d a b }

/-- A memory answer that nothing constrains: a draw (R59). -/
def Env.drawMemory (e : Env) (a : Nat) : Byte × Env :=
  match e.nextM with
  | b :: rest => (b, { e with nextM := rest })
  | [] => (Config.memoryDraw a e.trace, e)

/-- The byte a memory read answers: the stored byte where the environment stores and one is known, else a draw (R59, D26, I7). -/
def Env.answer (e : Env) (d : DestAccepts) (a : Nat) : Byte × Env :=
  match d with
  | .any => e.drawMemory a
  | _ =>
    match e.mem.read a with
    | some b => (b, e)
    | none => e.drawMemory a

/-- `MemRead(a, 1)` (R11, R59). -/
def Env.memRead (e : Env) (d : DestAccepts) (a : Nat) : Byte × Env :=
  let r := e.answer d a
  (r.1, r.2.emit (.memR a r.1))

/-- `address(i)`, the bank-window map (20_memory.md R51). -/
def address (c : Config) (i : Nat) : Nat :=
  let linear := c.lit.blockBytes * i
  let offset := linear % c.plat.bankSize
  let bank := c.plat.baseBank + linear / c.plat.bankSize
  bank * c.plat.bankSize + offset

/-- `address(i)` as the 32-bit cursor value (R29, R30). -/
def blockStart (c : Config) (i : Nat) : Cursor := BitVec.ofNat 32 (address c i)

end Sys2Proof.Machine
end

