-- ==== Sys2Proof/Machine/Checksum.lean ====
section
/-! DEFINITION. The checksum engine (40_checksum.md). -/

namespace Sys2Proof.Machine

/-- `T[i]` (R91), an entry of `CRC_WIDTH` bits. -/
def tableEntry (l : Literals) (i : Byte) : Word := romEntry l.rom l.crcWidth i

/-- One table-driven update: `(crc >> 8) ^ T[(crc ^ b) & 0xFF]` (R90, R95). -/
def crcUpdate (l : Literals) (crc : Word) (b : Byte) : Word :=
  (crc >>> 8) ^^^ tableEntry l ((crc ^^^ b.setWidth 16).setWidth 8)

/-- `checksum(s)` (R90): the updates in sequence order from `CRC_INIT`; no final XOR, reflection or byte swap (R93). -/
def checksum (l : Literals) (bytes : List Byte) : Word := bytes.foldl (crcUpdate l) l.crcInit

/-- `crc.init` (R94). -/
def execCrcInit (s : State) : Host.Outcome State Fault Refusal := .next (s.withCrc s.cfg.lit.crcInit)

/-- `crc.byte imm8` (R95). -/
def execCrcByte (b : Byte) (s : State) : Host.Outcome State Fault Refusal :=
  .next (s.withCrc (crcUpdate s.cfg.lit s.regs.crc b))

/-- The host write of `v` to `CRC` (R96). -/
def execWrCrc (v : Word) (s : State) : Host.Outcome State Fault Refusal := .next (s.withCrc v)

end Sys2Proof.Machine
end

