-- ==== Sys2Proof/Machine/Control.lean ====
section
/-! DEFINITION. The control commands (43_control.md) and the reserved space (30_encoding.md R74). -/

namespace Sys2Proof.Machine

/-- `nop` (R160). -/
def execNop (s : State) : Host.Outcome State Fault Refusal := .next s

/-- `clrerr` (R161). -/
def execClrerr (s : State) : Host.Outcome State Fault Refusal := .next (clearCmdError s)

/-- A reserved opcode: command error 1 and no other effect (R74). -/
def execReserved (_op _arg : Byte) (s : State) : Host.Outcome State Fault Refusal := .next (raiseCmdError .reservedOp s)

end Sys2Proof.Machine
end

