-- ==== Sys2Proof/Machine/Link.lean ====
section
/-! DEFINITION. The bit-serial link driver (41_link.md). -/

namespace Sys2Proof.Machine

/-- A link primitive is refused with error 3 while Transferring, else it runs (30_encoding.md R73). -/
def whenIdle (s : State) (run : State) : State :=
  match s.regs.mode with
  | .transferring => raiseCmdError .linkBusy s
  | .idle => run

/-- `DATA <- ReadBits(ep, n)` (R114, R115). -/
def readIntoData (ep : Endpoint) (n : Nat) (s : State) : State :=
  let r := s.env.readBits ep n
  (s.withData r.1).withEnv r.2

/-- A counted read: the operand check, error 2, comes before the mode check, error 3 (30_encoding.md R73). -/
def countedRead (ep : Endpoint) (n : BitVec 5) (s : State) : State :=
  if countLegal n then whenIdle s (readIntoData ep n.toNat s) else raiseCmdError .badArg s

/-- `pulse` (R113). -/
def execPulse (s : State) : Host.Outcome State Fault Refusal := .next (whenIdle s (s.withEnv s.env.pulse))

/-- `readp n` (R114). -/
def execReadp (n : BitVec 5) (s : State) : Host.Outcome State Fault Refusal := .next (countedRead .primary n s)

/-- `reads n` (R115). -/
def execReads (n : BitVec 5) (s : State) : Host.Outcome State Fault Refusal := .next (countedRead .secondary n s)

end Sys2Proof.Machine
end

