-- ==== Sys2Proof/Machine/Sequencer.lean ====
section
/-! DEFINITION. The block-transfer sequencer (42_sequencer.md): one `step` command, phase by phase in the order of R131. -/

namespace Sys2Proof.Machine

/-- `STATUS.STARTED <- 0; STATUS.LAST <- 0b00` (R141). -/
def clearResult (s : State) : State := s.withRegs { s.regs with started := false, last := .none }

/-- The line activity of the start poll (R132): the latch pulse where `PRIMARY_POLL_LATCH` is true, then `POLL_BITS` reads. -/
def pollLine (c : Config) (e : Env) : Word × Env :=
  (if c.primaryPollLatch then e.pulse else e).readBits .primary c.lit.pollBits

/-- The poll phase (R132). -/
def pollPhase (s : State) : State :=
  let p := pollLine s.cfg s.env
  (s.withRegs { s.regs with poll := p.1 }).withEnv p.2

/-- The start phase (R133): taken only in Idle, on equality with `START_PATTERN` in all 16 bits. -/
def startPhase (s : State) : State :=
  if s.regs.mode = .idle ∧ s.regs.poll = s.cfg.plat.startPattern then
    (s.withRegs { s.regs with we := true, mode := .transferring, started := true }).withEnv
      (s.env.weSetTimes s.cfg.lit.weAssertCount)
  else s

/-- The payload loop (R136) with `k` bytes left and the cursor at `cur`: each byte is received least significant bit first and
written before the next is read. Returns the bytes, the cursor and the environment. -/
def receivePayload (c : Config) : Nat → Cursor → Env → List Byte × Cursor × Env
  | 0, cur, e => ([], cur, e)
  | k + 1, cur, e =>
    let r := e.readBits .secondary c.lit.payloadReadBits
    let b : Byte := r.1.setWidth 8
    let rest := receivePayload c k (cur + 1) (r.2.memWrite c.plat.destAccepts cur.toNat b)
    (b :: rest.1, rest.2.1, rest.2.2)

/-- The read-back loop (R138) with `k` bytes left, from destination address `a` upwards. -/
def readBack (c : Config) : Nat → Cursor → Env → List Byte × Env
  | 0, _, e => ([], e)
  | k + 1, a, e =>
    let r := e.memRead c.plat.destAccepts a.toNat
    let rest := readBack c k (a + 1) r.2
    (r.1 :: rest.1, rest.2)

/-- The bytes the local checksum is taken over, by `CRC_SOURCE` (R138). -/
def localBytes (c : Config) (start : Cursor) (rx : List Byte) (e : Env) : List Byte × Env :=
  match c.crcSource with
  | .readback => readBack c c.lit.blockBytes start e
  | .received => (rx, e)

/-- The attempt up to its verdict (R134 to R138): the continue strobe, the cursor, the payload, the received checksum and the
local checksum. -/
def receiveBlock (s : State) : State :=
  let start := blockStart s.cfg s.regs.index.toNat
  let pay := receivePayload s.cfg s.cfg.lit.blockBytes start s.env.pulse
  let sum := pay.2.2.readBits .secondary s.cfg.lit.checksumReadBits
  let loc := localBytes s.cfg start pay.1 sum.2
  let l := checksum s.cfg.lit loc.1
  (s.withRegs { s.regs with bstart := start, cursor := pay.2.1, rxcrc := sum.1, lcrc := l, crc := l }).withEnv loc.2

/-- Mismatch (R139): one more strobe and `LAST` 0b10. -/
def retryBlock (s : State) : State := (s.withRegs { s.regs with last := .retry }).withEnv s.env.pulse

/-- A match that completes the transfer (R140): one de-assertion, and the session is Idle with index 0. -/
def completeTransfer (s : State) : State :=
  (s.withRegs { s.regs with we := false, index := 0, mode := .idle, last := .complete }).withEnv s.env.weClr

/-- Match (R140): the index advances, and the transfer completes where it reaches `N_BLOCKS` (log 21). -/
def acceptBlock (s : State) : State :=
  let next := s.regs.index.toNat + 1
  if next = s.cfg.lit.nBlocks then completeTransfer s
  else s.withRegs { s.regs with index := BitVec.ofNat 16 next, last := .accepted }

/-- The verdict of an attempt (R139, R140): the local against the received checksum. -/
def judgeBlock (s : State) : State := if s.regs.lcrc ≠ s.regs.rxcrc then retryBlock s else acceptBlock s

/-- The phases of R131 up to the start phase. -/
def pollAndStart (s : State) : State := startPhase (pollPhase (clearResult s))

/-- One iteration of the transfer loop (R131): the attempt follows in the same command as a start (D10). -/
def transferStep (s : State) : State :=
  let t := pollAndStart s
  match t.regs.mode with
  | .transferring => judgeBlock (receiveBlock t)
  | .idle => t

/-- `step` (R131), legal in both modes. With `INDEX` outside `[0, N_BLOCKS)` the spec gives no address and so no meaning (93 I12;
log 11). -/
def execStep (s : State) : Host.Outcome State Fault Refusal :=
  if s.regs.index.toNat < s.cfg.lit.nBlocks then .next (transferStep s) else .refused .indexOutOfRange

end Sys2Proof.Machine
end

