-- ==== Sys2Proof/Machine/Dispatch.lean ====
section
/-! DEFINITION. One arm per row of the opcode table (30_encoding.md R72, R74; 40_checksum.md R96). -/

namespace Sys2Proof.Machine

def exec (i : Instr) (s : State) : Host.Outcome State Fault Refusal :=
  match i with
  | .nop => Sys2Proof.Machine.execNop s
  | .crcInit => Sys2Proof.Machine.execCrcInit s
  | .crcByte b => Sys2Proof.Machine.execCrcByte b s
  | .pulse => Sys2Proof.Machine.execPulse s
  | .readp n => Sys2Proof.Machine.execReadp n s
  | .reads n => Sys2Proof.Machine.execReads n s
  | .step => Sys2Proof.Machine.execStep s
  | .clrerr => Sys2Proof.Machine.execClrerr s
  | .wrCrc v => Sys2Proof.Machine.execWrCrc v s
  | .reserved op arg => Sys2Proof.Machine.execReserved op arg s

end Sys2Proof.Machine
end

