-- ==== Sys2Proof/Machine/Flags.lean ====
section
/-! DEFINITION. The `STATUS` word (10_state.md R22): its fields as bits, and the word a host read returns. -/

namespace Sys2Proof.Machine

/-- `MODE`: 0 Idle, 1 Transferring (R31). -/
def Mode.bit : Mode → BitVec 1
  | .idle => 0
  | .transferring => 1

/-- `LAST` (R22). -/
def LastResult.bits : LastResult → BitVec 2
  | .none => 0b00
  | .accepted => 0b01
  | .retry => 0b10
  | .complete => 0b11

/-- The code of a command error (60_exceptions.md R171). -/
def CmdError.code : CmdError → BitVec 3
  | .reservedOp => 1
  | .badArg => 2
  | .linkBusy => 3
  | .badAccess => 4

/-- `ERRC` (R35): 0 where no error is recorded. -/
def Regs.errcBits (r : Regs) : BitVec 3 :=
  match r.errc with
  | none => 0
  | some c => c.code

/-- `ERR` is `(ERRC != 0)` (R35). -/
def Regs.errBit (r : Regs) : BitVec 1 := BitVec.ofBool (r.errcBits != 0)

/-- The `STATUS` word (R22): reserved bits 15:9 read as 0, then `ERRC`, `ERR`, `STARTED`, `LAST`, `WE`, `MODE`. -/
def Regs.statusWord (r : Regs) : Word :=
  (0 : BitVec 7) ++ r.errcBits ++ r.errBit ++ BitVec.ofBool r.started ++ r.last.bits ++ BitVec.ofBool r.we ++ r.mode.bit

end Sys2Proof.Machine
end

