-- ==== Sys2Proof/Machine/Window.lean ====
section
/-! DEFINITION. The register window (10_state.md R21, 20_memory.md R55, R56): which offset is which register, what a host read
returns, and which accesses are accepted. -/

namespace Sys2Proof.Machine

/-- The registers of the window (R21). -/
inductive RegName where
  | cmd
  | status
  | crc
  | data
  | poll
  | index
  | rxcrc
  | lcrc
  | cursorLo
  | cursorHi
  | bstartLo
  | bstartHi
  deriving DecidableEq, Repr

/-- The register at a window offset; none at an odd offset or at 0x18 to 0x1F (R21). -/
def registerAt (off : Offset) : Option RegName :=
  match off.toNat with
  | 0x00 => some .cmd
  | 0x02 => some .status
  | 0x04 => some .crc
  | 0x06 => some .data
  | 0x08 => some .poll
  | 0x0A => some .index
  | 0x0C => some .rxcrc
  | 0x0E => some .lcrc
  | 0x10 => some .cursorLo
  | 0x12 => some .cursorHi
  | 0x14 => some .bstartLo
  | 0x16 => some .bstartHi
  | _ => none

/-- A 32-bit cursor as the host reads it: the bits at and above `ADDR_WIDTH` are 0 (R29, R30; log 10). -/
def visibleCursor (c : Config) (v : Cursor) : Cursor := BitVec.ofNat 32 (v.toNat % 2 ^ c.plat.addrWidth)

/-- The value a host read of a register returns (R21); `CMD` reads as 0 (R55). -/
def State.readRegister (s : State) : RegName → Word
  | .cmd => 0
  | .status => s.regs.statusWord
  | .crc => s.regs.crc
  | .data => s.regs.data
  | .poll => s.regs.poll
  | .index => s.regs.index
  | .rxcrc => s.regs.rxcrc
  | .lcrc => s.regs.lcrc
  | .cursorLo => (visibleCursor s.cfg s.regs.cursor).extractLsb' 0 16
  | .cursorHi => (visibleCursor s.cfg s.regs.cursor).extractLsb' 16 16
  | .bstartLo => (visibleCursor s.cfg s.regs.bstart).extractLsb' 0 16
  | .bstartHi => (visibleCursor s.cfg s.regs.bstart).extractLsb' 16 16

/-- An access is accepted only if it is 16 bits wide at an even offset up to 0x16 (R55). -/
def accessAccepted (off : Offset) (width : Nat) : Bool :=
  width == 16 && !off.getLsbD 0 && off.toNat ≤ 0x16

/-- The address decode of the window (R21, R50): the offset of a host address, none outside the 32 bytes at `REG_BASE`. -/
def windowOffset (c : Config) (addr : Nat) : Option Offset :=
  if c.plat.regBase ≤ addr ∧ addr < c.plat.regBase + 32 then some (BitVec.ofNat 5 (addr - c.plat.regBase)) else none

end Sys2Proof.Machine
end

