-- ==== Sys2Proof/Machine/Access.lean ====
section
/-! DEFINITION. What one input from outside does to the block: a host access (20_memory.md R55) or a device reset
(70_reset_and_hazards.md R190, R191), and how an access of the host bus comes to be pending. -/

namespace Sys2Proof.Machine

/-- The command error of a write that is no instruction (30_encoding.md R73, 20_memory.md R55). -/
def rejectError : Reject → CmdError
  | .badArg => .badArg
  | .oddOffset => .badAccess
  | .unmappedOffset => .badAccess
  | .readOnly => .badAccess

/-- An accepted 16-bit write (R55): the instruction it decodes to runs, else its command error is recorded. -/
def writeWindow (off : Offset) (v : Word) (s : State) : Host.Outcome State Fault Refusal :=
  match decodeWrite off v with
  | .ok i => exec i s
  | .error r => .next (raiseCmdError (rejectError r) s)

/-- The value a host read returns: the register's where the access is accepted, else 0 (R55). -/
def readValue (off : Offset) (width : Nat) (s : State) : Word :=
  if accessAccepted off width then
    match registerAt off with
    | some r => s.readRegister r
    | none => 0
  else 0

/-- A host read (R55, R56): the reply, and error 4 where the access is refused; no other effect. -/
def readWindow (off : Offset) (width : Nat) (s : State) : State :=
  let t := if accessAccepted off width then s else raiseCmdError .badAccess s
  t.withReply (some (readValue off width s))

/-- A host access (R55). The access check comes before any decoding (60_exceptions.md R173). -/
def hostAccess (a : HostAccess) (s : State) : Host.Outcome State Fault Refusal :=
  match a with
  | .read off width => .next (readWindow off width s)
  | .write off width v =>
    if accessAccepted off width then writeWindow off v s else .next (raiseCmdError .badAccess s)

/-- A device reset (R190, R191): the registers of R41, no event; the flip-flop is disabled by the same reset (D17), and nothing is
known any more of the destination memory (log 8). -/
def deviceReset (s : State) : State :=
  { s with
    regs := Regs.reset s.cfg.lit
    env := { s.env with stbP := .low, latch := false, mem := [] }
    reply := none }

/-- One input from outside. A reset that cuts an access short leaves no effect and no event of it (R190; log 9). -/
def takeInput (i : HostInput) (s : State) : Host.Outcome State Fault Refusal :=
  match i with
  | .access a => hostAccess a s
  | .reset => .next (deviceReset s)
  | .cutShort _ => .next (deviceReset s)

/-- What the block does when its turn comes: it takes the first pending input, and with none pending it does nothing
(60_exceptions.md R182; log 2). -/
def takeTurn (s : State) : Host.Outcome State Fault Refusal :=
  match s.host with
  | [] => .next s
  | i :: rest => takeInput i (s.withHost rest)

/-- An access the host puts on its bus at address `addr`: pending for the block where the address lies in the window, and none of
the block's where it does not (R21, R50; log 19). -/
def State.onBus (s : State) (addr : Nat) (access : Offset → HostAccess) : State :=
  match windowOffset s.cfg addr with
  | some off => s.withHost (s.host ++ [.access (access off)])
  | none => s

/-- The host write that is the instruction with the low `nbits` bits of `w`, pending as the next input (log 1, log 12). -/
def State.pendWord (s : State) (nbits w : Nat) : State :=
  s.withHost (.access (.write (tableWrite nbits w).1 16 (tableWrite nbits w).2) :: s.host)

/-- The machine of configuration parameters chosen at will: refused where they break a constraint of R8 (R8, R12; log 25). -/
def State.configure (l : Literals) (p : Platform) (latch : Bool) (src : CrcSource) : Host.Outcome State Fault Refusal :=
  if h : l.Sound ∧ p.Fits l then
    .next (State.resetWith { lit := l, plat := p, primaryPollLatch := latch, crcSource := src, sound := h.1, fits := h.2 })
  else .refused .badConfiguration

end Sys2Proof.Machine
end

