-- ==== Sys2Proof/Machine/Step.lean ====
section
/-! DEFINITION. The machine's step: one host input (00_scope.md R6). -/

namespace Sys2Proof.Machine

/-- One step: the first pending host input (R6; log 1, log 2). -/
def step (s : State) : Host.Outcome State Fault Refusal := takeTurn s

/-- The state with an instruction's word pending as the next host write, so that the next step runs it (log 1, log 12). -/
def State.withFetchWord (s : State) (nbits w : Nat) : State := s.pendWord nbits w

end Sys2Proof.Machine
end

