-- ==== Sys2Proof/Safety.lean ====
section
/-! DEFINITION. The terms in which claims about the machine are stated: the session invariant, the destination window, the
events a `step` command appends, and sequences of commands. -/

namespace Sys2Proof.Machine

/-- The addresses of the destination window (20_memory.md R50). -/
abbrev InDestination (c : Config) (a : Nat) : Prop := c.plat.destBase ≤ a ∧ a < c.plat.destBase + c.lit.destSize

/-- A memory event touches only the destination window (R50). -/
def EventInWindow (c : Config) : Event → Prop
  | .memW a _ => InDestination c a
  | .memR a _ => InDestination c a
  | _ => True

/-- The write-enable invariant (42_sequencer.md R144): `WE = MODE`. -/
def LatchFollowsMode (r : Regs) : Prop := r.we = true ↔ r.mode = .transferring

/-- The session (10_state.md R26): `INDEX` is in range, and 0 in Idle. -/
def SessionInRange (c : Config) (r : Regs) : Prop :=
  r.index.toNat < c.lit.nBlocks ∧ (r.mode = .idle → r.index = 0)

/-- The cursors (10_state.md R29, R30): both 0 before any attempt, else `BSTART` at the start of a block and `CURSOR` one block
beyond it. -/
def CursorsAgree (c : Config) (r : Regs) : Prop :=
  (r.bstart = 0 ∧ r.cursor = 0) ∨
    ∃ i, i < c.lit.nBlocks ∧ r.bstart = blockStart c i ∧ r.cursor = r.bstart + BitVec.ofNat 32 c.lit.blockBytes

/-- The memory: canonical, and nothing known outside the destination window. -/
def MemoryInWindow (c : Config) (m : Memory) : Prop := Memory.wf m = true ∧ ∀ p ∈ m, InDestination c p.1

/-- The invariant of the machine between steps. -/
structure State.Inv (s : State) : Prop where
  latch : LatchFollowsMode s.regs
  session : SessionInRange s.cfg s.regs
  cursors : CursorsAgree s.cfg s.regs
  strobe : s.env.stbP = .low
  memory : MemoryInWindow s.cfg s.env.mem

/-- The value of line bits in read order: the bit of read `i` at position `i` (20_memory.md R54). -/
def wordOfBits : List Bool → Word
  | [] => 0
  | b :: bs => (BitVec.ofBool b).setWidth 16 ||| (wordOfBits bs <<< 1)

/-- The byte of line bits in read order. -/
def byteOfBits (bits : List Bool) : Byte := (wordOfBits bits).setWidth 8

/-- The draws the environment has already chosen for an endpoint. -/
def Env.chosen (e : Env) : Endpoint → List Bool
  | .primary => e.nextP
  | .secondary => e.nextS

/-- The environment with some of an endpoint's chosen draws used up. -/
def Env.useUp (e : Env) (n : Nat) : Endpoint → Env
  | .primary => { e with nextP := e.nextP.drop n }
  | .secondary => { e with nextS := e.nextS.drop n }

/-- `bits` are the answers to `bits.length` strobed reads of an endpoint: each is the bit the environment had chosen for it, or,
with none chosen, the free draw at the trace of that moment (10_state.md R40). -/
def LineAnswers (e : Env) (ep : Endpoint) (bits : List Bool) : Prop :=
  ∀ i, i < bits.length →
    bits[i]? = some (((e.chosen ep)[i]?).getD (Config.lineDraw ep (e.trace ++ (bits.take i).map (readEvent ep))))

/-- What the environment supplied to one `step` command: the poll bits, the payload bits byte by byte, the bits of the received
checksum, and the read-back answers. -/
structure Delivery where
  poll : List Bool
  payload : List (List Bool)
  sum : List Bool
  answers : List Byte
  deriving DecidableEq, Repr

/-- The sizes a delivery has (42_sequencer.md R132, R136, R137, R138). -/
def Delivery.Sized (c : Config) (d : Delivery) : Prop :=
  d.poll.length = c.lit.pollBits ∧ d.payload.length = c.lit.blockBytes ∧
    (∀ bits ∈ d.payload, bits.length = c.lit.payloadReadBits) ∧ d.sum.length = c.lit.checksumReadBits ∧
    (c.crcSource = .readback → d.answers.length = c.lit.blockBytes) ∧ (c.crcSource = .received → d.answers = [])

/-- The payload bytes received (R136). -/
def Delivery.bytes (d : Delivery) : List Byte := d.payload.map byteOfBits

/-- The bytes the local checksum is taken over (R138). -/
def Delivery.localBytes (c : Config) (d : Delivery) : List Byte :=
  match c.crcSource with
  | .readback => d.answers
  | .received => d.bytes

/-- The local checksum (R138). -/
def Delivery.localSum (c : Config) (d : Delivery) : Word := checksum c.lit (d.localBytes c)

/-- The events of the start poll (R132). -/
def pollEvents (c : Config) (d : Delivery) : List Event :=
  (if c.primaryPollLatch then [.pulse] else []) ++ d.poll.map .rdP

/-- The events of the payload from destination address `a` (R136). -/
def payloadEvents : Nat → List (List Bool) → List Event
  | _, [] => []
  | a, bits :: rest => bits.map .rdS ++ .memW a (byteOfBits bits) :: payloadEvents (a + 1) rest

/-- The events of the read-back from destination address `a` (R138). -/
def readBackEvents : Nat → List Byte → List Event
  | _, [] => []
  | a, v :: rest => .memR a v :: readBackEvents (a + 1) rest

/-- The events of a block attempt of block `i` up to its verdict (R134 to R138). -/
def attemptEvents (c : Config) (i : Nat) (d : Delivery) : List Event :=
  .pulse :: payloadEvents (address c i) d.payload ++ d.sum.map .rdS ++ readBackEvents (address c i) d.answers

/-- The `step` command takes the transition from Idle to Transferring (R133). -/
abbrev Delivery.Starts (s : State) (d : Delivery) : Prop :=
  s.regs.mode = .idle ∧ wordOfBits d.poll = s.cfg.plat.startPattern

/-- The `step` command runs a block attempt (R131). -/
abbrev Delivery.Attempts (s : State) (d : Delivery) : Prop := s.regs.mode = .transferring ∨ d.Starts s

/-- The poll and start phases of a `step` command on the registers (R132, R133, R141). -/
def pollRegs (r : Regs) (d : Delivery) : Regs := { r with started := false, last := .none, poll := wordOfBits d.poll }

/-- The registers after the start transition (R133). -/
def startRegs (r : Regs) : Regs := { r with we := true, mode := .transferring, started := true }

/-- The registers a block attempt leaves before its verdict (R135 to R138). -/
def attemptRegs (c : Config) (i : Nat) (d : Delivery) (r : Regs) : Regs :=
  { r with
    bstart := BitVec.ofNat 32 (address c i)
    cursor := BitVec.ofNat 32 (address c i + c.lit.blockBytes)
    rxcrc := wordOfBits d.sum
    lcrc := d.localSum c
    crc := d.localSum c }

/-- The registers after a retry (R139). -/
def retryRegs (r : Regs) : Regs := { r with last := .retry }

/-- The registers after an accept that does not complete the transfer (R140). -/
def acceptRegs (i : Nat) (r : Regs) : Regs := { r with index := BitVec.ofNat 16 (i + 1), last := .accepted }

/-- The registers after the accept that completes the transfer (R140). -/
def completeRegs (r : Regs) : Regs := { r with we := false, index := 0, mode := .idle, last := .complete }

/-- A destination memory that stores every write, after some events (20_memory.md R58, `store-always`). -/
def storeEvents : Memory → List Event → Memory
  | m, [] => m
  | m, .memW a v :: rest => storeEvents (m.write a v) rest
  | m, _ :: rest => storeEvents m rest

/-- The byte a destination memory is known to answer at an address: with `any` none (20_memory.md R59, D26). -/
def Env.known (c : Config) (e : Env) (a : Nat) : Option Byte :=
  match c.plat.destAccepts with
  | .any => none
  | .storeAlways => Memory.read e.mem a
  | .storeIfLatched => Memory.read e.mem a

/-- An event carries the answer the environment gives at that moment: a line bit is the first chosen one, else the free draw; a
memory answer is the known byte, else a chosen one, else the free draw (10_state.md R40; log 3, log 6). -/
def Env.admits (c : Config) (e : Env) : Event → Prop
  | .rdP b => b = (e.nextP.head?).getD (Config.lineDraw .primary e.trace)
  | .rdS b => b = (e.nextS.head?).getD (Config.lineDraw .secondary e.trace)
  | .memR a v => v = (e.known c a).getD ((e.nextM.head?).getD (Config.memoryDraw a e.trace))
  | _ => True

/-- What an event leaves in the environment: it ends the trace; a pulse leaves the strobe low; a draw uses up its chosen value; the
flip-flop is drawn anew at each assertion and de-assertion (D26, I5; log 7); a write stores by `DEST_ACCEPTS` (R58). -/
def Env.seeing (c : Config) (e : Env) (ev : Event) : Env :=
  let after := { e with trace := e.trace ++ [ev] }
  let drawn := (e.nextL.head?).getD (Config.latchDraw (e.trace ++ [ev]))
  match ev with
  | .pulse => { after with stbP := .low }
  | .rdP _ => { after with nextP := e.nextP.tail }
  | .rdS _ => { after with nextS := e.nextS.tail }
  | .weSet => { after with latch := drawn, nextL := e.nextL.tail }
  | .weClr => { after with latch := drawn, nextL := e.nextL.tail }
  | .memW a v =>
    match c.plat.destAccepts, e.latch with
    | .storeAlways, _ => { after with mem := e.mem.write a v }
    | .storeIfLatched, true => { after with mem := e.mem.write a v }
    | .storeIfLatched, false => after
    | .any, _ => { after with mem := e.mem.forget a }
  | .memR a _ =>
    match e.known c a with
    | some _ => after
    | none => { after with nextM := e.nextM.tail }

/-- The environment goes from the first to the second by some events, each with the answer and the effect above. -/
def Env.FollowsTo (c : Config) : Env → List Event → Env → Prop
  | e, [], e' => e' = e
  | e, ev :: rest, e' => e.admits c ev ∧ Env.FollowsTo c (e.seeing c ev) rest e'

/-- How many times a `step` command that ended in these registers drew the flip-flop: at each assertion of a start, and at the
de-assertion of a completion (42_sequencer.md R133, R140; log 7). -/
def latchDraws (c : Config) (r : Regs) : Nat :=
  (if r.started then c.lit.weAssertCount else 0) + (if r.last = .complete then 1 else 0)

/-- How many of each event: `Pulse`, `RdP`, `WeSet`, `RdS`, `MemW`, `MemR`, `WeClr`, in the order of the table of R143. -/
structure Tally where
  pulse : Nat := 0
  rdP : Nat := 0
  weSet : Nat := 0
  rdS : Nat := 0
  memW : Nat := 0
  memR : Nat := 0
  weClr : Nat := 0
  deriving DecidableEq, Repr

/-- The tally of some events. -/
def tally : List Event → Tally
  | [] => {}
  | ev :: rest =>
    let t := tally rest
    match ev with
    | .pulse => { t with pulse := t.pulse + 1 }
    | .rdP _ => { t with rdP := t.rdP + 1 }
    | .weSet => { t with weSet := t.weSet + 1 }
    | .rdS _ => { t with rdS := t.rdS + 1 }
    | .memW _ _ => { t with memW := t.memW + 1 }
    | .memR _ _ => { t with memR := t.memR + 1 }
    | .weClr => { t with weClr := t.weClr + 1 }

/-- The instructions in order, stopping at the first that has no next state. -/
def runInstrs : List Instr → State → Host.Outcome State Fault Refusal
  | [], s => .next s
  | i :: rest, s =>
    match exec i s with
    | .next t => runInstrs rest t
    | .fault f => .fault f
    | .refused r => .refused r

/-- A write to `CMD` of the word `w` is the next input of `s`, and `rest` are the inputs after it. -/
abbrev CommandPending (s : State) (w : Word) (rest : List HostInput) : Prop :=
  s.host = .access (.write 0x00 16 w) :: rest

/-- A word of opcode `op`, a form N command, is refused with command error 2 when its `ARG` is not 0 (30_encoding.md R71, R73). -/
def ArgRefused (op : Byte) : Prop :=
  ∀ (s : State) (rest : List HostInput) (arg : Byte), arg ≠ 0 → CommandPending s (commandWord arg op) rest →
    step s = .next (raiseCmdError .badArg (s.withHost rest))

/-- `ARG` fails the operand check of opcode `op` (R71): not 0 in form N, not a count 1 to 16 in form C. -/
def ArgIllegal (op arg : Byte) : Prop :=
  ((op = 0x00 ∨ op = 0x01 ∨ op = 0x03 ∨ op = 0x06 ∨ op = 0x07) ∧ arg ≠ 0) ∨
    ((op = 0x04 ∨ op = 0x05) ∧ ¬(1 ≤ arg.toNat ∧ arg.toNat ≤ 16))

/-- A word of opcode `op`, a form C command, is refused with command error 2 when its `ARG` is not a count 1 to 16 (R71, R73). -/
def CountRefused (op : Byte) : Prop :=
  ∀ (s : State) (rest : List HostInput) (arg : Byte), ¬(1 ≤ arg.toNat ∧ arg.toNat ≤ 16) →
    CommandPending s (commandWord arg op) rest → step s = .next (raiseCmdError .badArg (s.withHost rest))

/-- The state with another `START_PATTERN` (00_scope.md R8). -/
def State.withStartPattern (s : State) (p : Word) : State :=
  { s with cfg := { s.cfg with plat := { s.cfg.plat with startPattern := p } } }

/-- The executable words of the partition of R74. -/
abbrev ExecutableWord (w : Word) : Prop :=
  w = 0x0000 ∨ w = 0x0001 ∨ w = 0x0003 ∨ w = 0x0006 ∨ w = 0x0007 ∨ opField w = 0x02 ∨
    ((opField w = 0x04 ∨ opField w = 0x05) ∧ 1 ≤ (argField w).toNat ∧ (argField w).toNat ≤ 16)

/-- The event touches the destination memory. -/
def isMemoryEvent : Event → Bool
  | .memW _ _ => true
  | .memR _ _ => true
  | _ => false

/-- A device reset reaches the block (70_reset_and_hazards.md R190). -/
def HostInput.isReset : HostInput → Bool
  | .access _ => false
  | .reset => true
  | .cutShort _ => true

end Sys2Proof.Machine
end

