-- ==== Sys2Proof/Certificates/Slice0/Obligations.lean ====
section
/-! DEFINITION. The statements about the machine, for the provers. A docstring names the rule a statement formalises, or says
that the statement rests on a choice of the model and names the log entry. -/

open Sys2Proof Sys2Proof.Machine

/-! ## Encoding -/

/-- R70 to R74, R96. Every well-formed instruction decodes from the host write it encodes to. -/
def Obligations.DecodeOfEncode : Prop :=
  ∀ i : Instr, i.wellFormed = true → decodeWrite (encode i).1 (encode i).2 = .ok i

/-- R70 to R74, R96. A host write has one meaning: whatever a write decodes to encodes to that write. -/
def Obligations.EncodeOfDecode : Prop :=
  ∀ (off : Offset) (v : Word) (i : Instr), decodeWrite off v = .ok i → encode i = (off, v)

/-- R70, R72, R76. Words written out from the encoding tables decode to their instructions. -/
def Obligations.DecodesSpecWords : Prop :=
  decodeCommand 0x0000 = .ok .nop ∧ decodeCommand 0xFF02 = .ok (.crcByte 0xFF) ∧ decodeCommand 0x1004 = .ok (.readp 16) ∧
    decodeCommand 0x0805 = .ok (.reads 8) ∧ decodeCommand 0x0006 = .ok .step ∧
    decodeCommand 0x0108 = .ok (.reserved 0x08 0x01) ∧ decodeWrite 0x04 0xBEEF = .ok (.wrCrc 0xBEEF)

/-- R74. The word space is partitioned: the executable words decode to a well-formed instruction that is not reserved, the words
of opcodes 0x08 and above are reserved and record error 1, and every other word records error 2. -/
def Obligations.CommandWordsPartition : Prop :=
  (∀ w : Word, ExecutableWord w ↔
      ∃ i : Instr, decodeCommand w = .ok i ∧ i.wellFormed = true ∧ ∀ op arg, i ≠ .reserved op arg) ∧
    (∀ (s : State) (w : Word) (rest : List HostInput), CommandPending s w rest → 8 ≤ (opField w).toNat →
      step s = .next (raiseCmdError .reservedOp (s.withHost rest))) ∧
    ∀ (s : State) (w : Word) (rest : List HostInput), CommandPending s w rest → (opField w).toNat < 8 → ¬ExecutableWord w →
      step s = .next (raiseCmdError .badArg (s.withHost rest))

/-! ## Reset, the step, and host accesses -/

/-- R41. The registers after reset and the strobe level; the flip-flop is reset with them (D17; log 7). The configuration has the
document's constants (R7) and the decided choices (R8, D9, D11), which are fields at their decided values (log 24); the constant
table is the listing of R91, which the spec takes from general knowledge (PRESUMED, log 13). -/
def Obligations.ResetValues : Prop :=
  State.reset.regs.mode = .idle ∧ State.reset.regs.index = 0 ∧ State.reset.regs.we = false ∧
    State.reset.regs.last = .none ∧ State.reset.regs.started = false ∧ State.reset.regs.errBit = 0 ∧
    State.reset.regs.errcBits = 0 ∧ State.reset.regs.statusWord = 0x0000 ∧ State.reset.regs.crc = 0xC0DE ∧
    State.reset.regs.data = 0 ∧ State.reset.regs.poll = 0 ∧ State.reset.regs.rxcrc = 0 ∧ State.reset.regs.lcrc = 0 ∧
    State.reset.regs.cursor = 0 ∧ State.reset.regs.bstart = 0 ∧ State.reset.cfg.lit.rom = crcListing ∧
    State.reset.env.stbP = .low ∧ State.reset.env.latch = false ∧ State.reset.cfg.lit = Literals.document ∧
    State.reset.cfg.primaryPollLatch = true ∧ State.reset.cfg.crcSource = .readback

/-- R190, R191. From any state and even where it cuts an access short, a device reset puts every register into its reset value,
abandons the session, emits no event and disables the flip-flop; the accesses after it are taken next. -/
def Obligations.DeviceResetClearsRegisters : Prop :=
  ∀ (s : State) (i : HostInput) (rest : List HostInput), s.host = i :: rest → i.isReset = true →
    ∃ t, step s = .next t ∧ t.regs = Regs.reset s.cfg.lit ∧ t.regs.mode = .idle ∧ t.regs.index = 0 ∧
      t.env.trace = s.env.trace ∧ t.env.stbP = .low ∧ t.env.latch = false ∧ t.cfg = s.cfg ∧ t.host = rest

/-- 00_scope.md R6, 30_encoding.md R73: a pending 16-bit write that decodes to an instruction runs exactly that instruction, with
the write taken from the pending inputs (the inputs are the model's list, log 1). -/
def Obligations.StepRunsDecodedInstruction : Prop :=
  ∀ (s : State) (off : Offset) (v : Word) (rest : List HostInput) (i : Instr),
    s.host = .access (.write off 16 v) :: rest → decodeWrite off v = .ok i → step s = exec i (s.withHost rest)

/-- 60_exceptions.md R182: with no input pending the step leaves the state as it is (the model's choice, log 2). -/
def Obligations.StepWithoutInputIsIdle : Prop := ∀ s : State, s.host = [] → step s = .next s

/-- R55. Exactly the 16-bit accesses at even offsets up to 0x16 are accepted. A refused access records error 4 and does nothing
else, a refused read returning 0; an accepted read returns the register at the offset and does nothing else; an accepted write
runs a command at 0x00, writes `CRC` at 0x04, and is refused with error 4 at every other offset. Every block of the destination
starts at a multiple of 64. -/
def Obligations.HostAccessRule : Prop :=
  (∀ off width, accessAccepted off width = true ↔ width = 16 ∧ off.toNat % 2 = 0 ∧ off.toNat ≤ 0x16) ∧
    (∀ (s : State) (rest : List HostInput) (off : Offset) (width : Nat),
      s.host = .access (.read off width) :: rest →
        (accessAccepted off width = false →
          step s = .next ((raiseCmdError .badAccess (s.withHost rest)).withReply (some 0))) ∧
        (accessAccepted off width = true → ∃ r, registerAt off = some r ∧
          step s = .next { s with host := rest, reply := some (s.readRegister r) })) ∧
    (∀ (c : Config) (i : Nat), c.lit = Literals.document → address c i % 64 = 0) ∧
    ∀ (s : State) (rest : List HostInput) (off : Offset) (width : Nat) (v : Word),
      s.host = .access (.write off width v) :: rest →
        (accessAccepted off width = false → step s = .next (raiseCmdError .badAccess (s.withHost rest))) ∧
        (accessAccepted off width = true → off = 0x04 →
          step s = .next { s with host := rest, regs := { s.regs with crc := v } }) ∧
        (accessAccepted off width = true → off ≠ 0x00 → off ≠ 0x04 →
          step s = .next (raiseCmdError .badAccess (s.withHost rest))) ∧
        (accessAccepted off width = true → off = 0x00 →
          step s = match decodeCommand v with
            | .ok i => exec i (s.withHost rest)
            | .error _ => .next (raiseCmdError .badArg (s.withHost rest)))

/-- R21. The register map: what a 16-bit read at each offset returns. The halves of the cursors are those of the visible
value (R29, R30). -/
def Obligations.RegisterMap : Prop :=
  ∀ (s : State),
    readValue 0x00 16 s = 0x0000 ∧ readValue 0x02 16 s = s.regs.statusWord ∧ readValue 0x04 16 s = s.regs.crc ∧
      readValue 0x06 16 s = s.regs.data ∧ readValue 0x08 16 s = s.regs.poll ∧ readValue 0x0A 16 s = s.regs.index ∧
      readValue 0x0C 16 s = s.regs.rxcrc ∧ readValue 0x0E 16 s = s.regs.lcrc ∧
      readValue 0x12 16 s ++ readValue 0x10 16 s = visibleCursor s.cfg s.regs.cursor ∧
      readValue 0x16 16 s ++ readValue 0x14 16 s = visibleCursor s.cfg s.regs.bstart ∧
      ∀ off : Offset, 0x18 ≤ off.toNat → registerAt off = none ∧ ∀ width, readValue off width s = 0

/-- R29, R30. The bits of a cursor register that a host reads: the held bit below `ADDR_WIDTH`, 0 at and above it (log 10). -/
def Obligations.CursorHighBitsReadZero : Prop :=
  ∀ (c : Config) (v : Cursor) (i : Nat),
    (visibleCursor c v).getLsbD i = (decide (i < c.plat.addrWidth) && v.getLsbD i)

/-- R22, R35, R171. The `STATUS` word bit by bit, with the four patterns of `LAST`; `ERRC` is 0 with no error recorded and else the
code of the recorded one, 1 to 4; `ERRC` is never 5 to 7 and `ERR` is `(ERRC != 0)`. -/
def Obligations.StatusLayout : Prop :=
  ∀ r : Regs,
    r.statusWord.getLsbD 0 = decide (r.mode = .transferring) ∧ r.statusWord.getLsbD 1 = r.we ∧
      r.statusWord.extractLsb' 2 2 = r.last.bits ∧ r.statusWord.getLsbD 4 = r.started ∧
      r.statusWord.getLsbD 5 = r.errc.isSome ∧ r.statusWord.extractLsb' 6 3 = r.errcBits ∧
      r.statusWord.extractLsb' 9 7 = 0 ∧ r.errcBits.toNat ≤ 4 ∧
      (r.statusWord.getLsbD 5 = true ↔ r.statusWord.extractLsb' 6 3 ≠ 0) ∧
      (r.last = .none → r.statusWord.extractLsb' 2 2 = 0b00) ∧ (r.last = .accepted → r.statusWord.extractLsb' 2 2 = 0b01) ∧
      (r.last = .retry → r.statusWord.extractLsb' 2 2 = 0b10) ∧ (r.last = .complete → r.statusWord.extractLsb' 2 2 = 0b11) ∧
      (r.errc = none → r.statusWord.extractLsb' 6 3 = 0) ∧ (∀ c, r.errc = some c → r.statusWord.extractLsb' 6 3 = c.code) ∧
      CmdError.reservedOp.code = 1 ∧ CmdError.badArg.code = 2 ∧ CmdError.linkBusy.code = 3 ∧ CmdError.badAccess.code = 4

/-- R21, R50. The window decode: an access on the host bus becomes pending for the block exactly where its address lies in the 32
bytes at `REG_BASE`, at its offset from there (log 19). -/
def Obligations.WindowDecode : Prop :=
  ∀ (s : State) (addr : Nat) (access : Offset → HostAccess),
    (∀ off : Offset, addr = s.cfg.plat.regBase + off.toNat →
        s.onBus addr access = { s with host := s.host ++ [.access (access off)] }) ∧
      ((addr < s.cfg.plat.regBase ∨ s.cfg.plat.regBase + 32 ≤ addr) → s.onBus addr access = s)

/-! ## Command errors -/

/-- R171. A command error is recorded when none is, with its code; the first code stands; nothing else changes. -/
def Obligations.FirstErrorStands : Prop :=
  ∀ (s : State) (c : CmdError),
    (s.regs.errc = none → raiseCmdError c s = { s with regs := { s.regs with errc := some c } }) ∧
      (s.regs.errc ≠ none → raiseCmdError c s = s) ∧
      CmdError.reservedOp.code = 1 ∧ CmdError.badArg.code = 2 ∧ CmdError.linkBusy.code = 3 ∧ CmdError.badAccess.code = 4

/-- R175. A recorded error stays, whatever errors follow, until a `clrerr` command or a device reset; and both of them clear it. -/
def Obligations.OnlyClrerrAndResetClearErrors : Prop :=
  (∀ (s t : State) (c : CmdError), s.regs.errc = some c → step s = .next t →
    t.regs.errc = some c ∨
      (t.regs.errc = none ∧ ∃ rest, CommandPending s 0x0007 rest ∨ ∃ i, s.host = i :: rest ∧ i.isReset = true)) ∧
    (∀ (s : State) (rest : List HostInput), CommandPending s 0x0007 rest →
      ∃ t, step s = .next t ∧ t.regs.errc = none) ∧
    ∀ (s : State) (i : HostInput) (rest : List HostInput), s.host = i :: rest → i.isReset = true →
      ∃ t, step s = .next t ∧ t.regs.errc = none

/-- R73, R173. The checks of one write to `CMD`, in order: a refused access is error 4, then a reserved opcode is error 1, then an
illegal `ARG` is error 2, then a link primitive while Transferring is error 3; only the first is raised, and none replaces a recorded
one. -/
def Obligations.ErrorPriority : Prop :=
  ∀ (s : State) (rest : List HostInput) (off : Offset) (width : Nat) (w : Word),
    s.host = .access (.write off width w) :: rest → off = 0x00 ∨ accessAccepted off width = false →
      (accessAccepted off width = false → step s = .next (raiseCmdError .badAccess (s.withHost rest))) ∧
        (accessAccepted off width = true →
          (8 ≤ (opField w).toNat → step s = .next (raiseCmdError .reservedOp (s.withHost rest))) ∧
            ((opField w).toNat < 8 → ArgIllegal (opField w) (argField w) →
              step s = .next (raiseCmdError .badArg (s.withHost rest))) ∧
            ((opField w = 0x03 ∨ opField w = 0x04 ∨ opField w = 0x05) → ¬ArgIllegal (opField w) (argField w) →
              s.regs.mode = .transferring → step s = .next (raiseCmdError .linkBusy (s.withHost rest)))) ∧
        ∀ c, s.regs.errc ≠ none → raiseCmdError c (s.withHost rest) = s.withHost rest

/-- R73, R174. A recorded error blocks nothing: with another error record every instruction has the same effect, but for the
error record. -/
def Obligations.ErrorsBlockNothing : Prop :=
  ∀ (i : Instr) (s t : State) (e : Option CmdError), exec i s = .next t →
    ∃ e', exec i (s.withErrc e) = .next (t.withErrc e')

/-- R74. A reserved instruction records error 1 and has no other effect. -/
def Obligations.ReservedRecordsError1 : Prop :=
  ∀ (op arg : Byte) (s : State),
    (s.regs.errc = none → exec (.reserved op arg) s = .next { s with regs := { s.regs with errc := some .reservedOp } }) ∧
      (s.regs.errc ≠ none → exec (.reserved op arg) s = .next s)

/-! ## Control commands and the checksum engine -/

/-- R160. `nop` does nothing, in any state; the word 0x0000 is `nop`, and any other `ARG` is error 2. -/
def Obligations.NopDoesNothing : Prop :=
  (∀ s : State, exec .nop s = .next s) ∧ decodeCommand 0x0000 = .ok .nop ∧ ArgRefused 0x00

/-- R161. `clrerr` clears `ERRC` and `ERR` and nothing else; with `ERRC = 0` it changes nothing; any other `ARG` is error 2. -/
def Obligations.ClrerrClearsTheRecord : Prop :=
  (∀ s : State, exec .clrerr s = .next { s with regs := { s.regs with errc := none } }) ∧
    (∀ s t : State, exec .clrerr s = .next t → t.regs.errcBits = 0 ∧ t.regs.errBit = 0) ∧
    (∀ s : State, s.regs.errc = none → exec .clrerr s = .next s) ∧ decodeCommand 0x0007 = .ok .clrerr ∧ ArgRefused 0x07

/-- R94. `crc.init` sets `CRC` to `CRC_INIT`, 0xC0DE, and nothing else; it is idempotent; any other `ARG` is error 2. -/
def Obligations.CrcInitSetsSeed : Prop :=
  (∀ s : State, exec .crcInit s = .next { s with regs := { s.regs with crc := s.cfg.lit.crcInit } }) ∧
    Literals.document.crcInit = 0xC0DE ∧ (∀ s : State, runInstrs [.crcInit, .crcInit] s = runInstrs [.crcInit] s) ∧
    decodeCommand 0x0001 = .ok .crcInit ∧ ArgRefused 0x01

/-- R95. `crc.byte` makes one table-driven update of `CRC` and changes nothing else, for every byte and in both modes. A byte equal
to `CRC[7:0]` gives a pure shift with the document's table. -/
def Obligations.CrcByteUpdates : Prop :=
  (∀ (b : Byte) (s : State), exec (.crcByte b) s = .next { s with regs := { s.regs with
      crc := (s.regs.crc >>> 8) ^^^ tableEntry s.cfg.lit ((s.regs.crc ^^^ b.setWidth 16).setWidth 8) } }) ∧
    (∀ b : Byte, decodeCommand (commandWord b 0x02) = .ok (.crcByte b)) ∧
    (∀ crc : Word, crcUpdate Literals.document crc (crc.setWidth 8) = crc >>> 8) ∧
    crcUpdate Literals.document 0xC0DE 0xDE = 0x00C0 ∧ crcUpdate Literals.document 0x00C0 0xC0 = 0x0000 ∧
    crcUpdate Literals.document 0xC0DE 0x00 = 0x5840

/-- R96. The host write of `CRC` sets it to any value and changes nothing else, in both modes; an access that is not 16 bits wide is
error 4. -/
def Obligations.HostWriteSeedsCrc : Prop :=
  (∀ (v : Word) (s : State), exec (.wrCrc v) s = .next { s with regs := { s.regs with crc := v } }) ∧
    (∀ v : Word, decodeWrite 0x04 v = .ok (.wrCrc v)) ∧
    ∀ (s : State) (rest : List HostInput) (width : Nat) (v : Word), width ≠ 16 →
      s.host = .access (.write 0x04 width v) :: rest → step s = .next (raiseCmdError .badAccess (s.withHost rest))

/-- R97. `crc.init` and then `crc.byte` over the bytes in order leaves `CRC = checksum`, and from a seed `v` the same sequence leaves
the value of R90 with `v` in place of `CRC_INIT`; nothing but `CRC` changes. -/
def Obligations.CrcCommandsComputeChecksum : Prop :=
  ∀ (bytes : List Byte) (s : State),
    runInstrs (.crcInit :: bytes.map .crcByte) s =
        .next { s with regs := { s.regs with crc := checksum s.cfg.lit bytes } } ∧
      ∀ v : Word, runInstrs (.wrCrc v :: bytes.map .crcByte) s =
        .next { s with regs := { s.regs with crc := checksum { s.cfg.lit with crcInit := v } bytes } }

/-- R92. The checksum of no bytes is the initial value, 0xC0DE. -/
def Obligations.ChecksumOfNothing : Prop :=
  (∀ l : Literals, checksum l [] = l.crcInit) ∧ checksum Literals.document [] = 0xC0DE

/-- R91. The document's table is the listing, which is the one the generator makes from 0xA001; `T[1]`, `T[0x80]`, and the
CRC-16/ARC check value with seed 0 over "123456789". With other constants, the entries are the generator's for their polynomial,
unless the table is given outright (I2; log 13, log 28). -/
def Obligations.TableIsGenerated : Prop :=
  Literals.document.rom = crcListing ∧
    (∀ l : Literals, l.Sound → l.table = none → ∀ i : Byte, tableEntry l i = crcGenerate l.crcPoly i.toNat) ∧
    (∀ (l : Literals) (t : CrcTable), l.table = some t → l.rom = t) ∧
    Literals.document.crcPoly = 0xA001 ∧ tableEntry Literals.document 0x01 = 0xC0C1 ∧
    tableEntry Literals.document 0x80 = 0xA001 ∧
    checksum { Literals.document with crcInit := 0x0000 } [0x31, 0x32, 0x33, 0x34, 0x35, 0x36, 0x37, 0x38, 0x39] = 0xBB3D

/-- 00_scope.md R7, 40_checksum.md R90. A checksum fits `CRC_WIDTH` bits, and so does every value `crc.byte` leaves, whatever `CRC`
held (for widths other than the document's, log 28). -/
def Obligations.ChecksumHasCrcWidth : Prop :=
  (∀ (l : Literals) (bytes : List Byte), l.Sound → (checksum l bytes).toNat < 2 ^ l.crcWidth) ∧
    ∀ (b : Byte) (s t : State), exec (.crcByte b) s = .next t → t.regs.crc.toNat < 2 ^ s.cfg.lit.crcWidth

/-- 40_checksum.md R90, R91. The table-driven update is the bit-serial one: exclusive-or the byte into the low bits, then eight shift
steps of the reflected polynomial. -/
def Obligations.TableUpdateIsBitSerial : Prop :=
  ∀ (crc : Word) (b : Byte),
    crcUpdate Literals.document crc b = Nat.repeat (crcShift Literals.document.crcPoly) 8 (crc ^^^ b.setWidth 16)

/-- 40_checksum.md R90, R98. Two byte sequences that differ in exactly one byte have different checksums, so a block with one
corrupted payload byte and an intact checksum is never accepted. -/
def Obligations.OneCorruptByteChangesChecksum : Prop :=
  ∀ (pre post : List Byte) (x y : Byte), x ≠ y →
    checksum Literals.document (pre ++ x :: post) ≠ checksum Literals.document (pre ++ y :: post)

/-! ## The link driver -/

/-- R113. In Idle `pulse` emits one `Pulse`, leaves the strobe low (R111) and changes nothing else; while Transferring it is refused
with error 3; any other `ARG` is error 2. -/
def Obligations.PulseEmitsOneTick : Prop :=
  (∀ s : State, s.regs.mode = .idle → exec .pulse s =
      .next { s with env := { s.env with stbP := .low, trace := s.env.trace ++ [.pulse] } }) ∧
    (∀ s : State, s.regs.mode = .transferring → exec .pulse s = .next (raiseCmdError .linkBusy s)) ∧
    decodeCommand 0x0003 = .ok .pulse ∧ ArgRefused 0x03

/-- R114, R112. In Idle and for a count 1 to 16, `readp n` makes `n` strobed reads of the primary endpoint and leaves in `DATA` the bit
of read `i` at bit `i`, the bits above 0; nothing else changes. While Transferring a legal count is error 3, and an `ARG` that is not
a count 1 to 16 is error 2 in both modes. That the bits are the chosen ones first, then the free draw, and that the chosen ones are
used up, is the model's form of a draw (DESIGN CHOICE, log 3). -/
def Obligations.ReadpReadsPrimaryBits : Prop :=
  (∀ n : BitVec 5, decodeCommand (commandWord (countArg n) 0x04) = .ok (.readp n)) ∧ CountRefused 0x04 ∧
  ∀ (n : BitVec 5) (s : State),
    (1 ≤ n.toNat → n.toNat ≤ 16 → s.regs.mode = .idle →
        ∃ (bits : List Bool) (d : Word), bits.length = n.toNat ∧ LineAnswers s.env .primary bits ∧
          (∀ i, i < 16 → d.getLsbD i = (bits[i]?).getD false) ∧
          exec (.readp n) s = .next { s with
            regs := { s.regs with data := d }
            env := { s.env with trace := s.env.trace ++ bits.map .rdP, nextP := s.env.nextP.drop n.toNat } }) ∧
      (1 ≤ n.toNat → n.toNat ≤ 16 → s.regs.mode = .transferring →
        exec (.readp n) s = .next (raiseCmdError .linkBusy s)) ∧
      (¬(1 ≤ n.toNat ∧ n.toNat ≤ 16) → exec (.readp n) s = .next (raiseCmdError .badArg s))

/-- R115, R112. The same for `reads n` and the secondary endpoint, with the same form of a draw (DESIGN CHOICE, log 3). -/
def Obligations.ReadsReadsSecondaryBits : Prop :=
  (∀ n : BitVec 5, decodeCommand (commandWord (countArg n) 0x05) = .ok (.reads n)) ∧ CountRefused 0x05 ∧
  ∀ (n : BitVec 5) (s : State),
    (1 ≤ n.toNat → n.toNat ≤ 16 → s.regs.mode = .idle →
        ∃ (bits : List Bool) (d : Word), bits.length = n.toNat ∧ LineAnswers s.env .secondary bits ∧
          (∀ i, i < 16 → d.getLsbD i = (bits[i]?).getD false) ∧
          exec (.reads n) s = .next { s with
            regs := { s.regs with data := d }
            env := { s.env with trace := s.env.trace ++ bits.map .rdS, nextS := s.env.nextS.drop n.toNat } }) ∧
      (1 ≤ n.toNat → n.toNat ≤ 16 → s.regs.mode = .transferring →
        exec (.reads n) s = .next (raiseCmdError .linkBusy s)) ∧
      (¬(1 ≤ n.toNat ∧ n.toNat ≤ 16) → exec (.reads n) s = .next (raiseCmdError .badArg s))

/-! ## The sequencer -/

/-- R131 to R141. One `step` command is one iteration of the transfer loop: for what the environment supplied (its chosen bits
first, the model's form of a draw, DESIGN CHOICE, log 3), the registers and the events are those of the poll, the start, the attempt
and its verdict, in that order. For `N_BLOCKS` 65536 the completing clause rests on the exact `INDEX + 1` (log 21). -/
def Obligations.StepCommandIsOneIteration : Prop :=
  ∀ s : State, s.regs.index.toNat < s.cfg.lit.nBlocks →
    ∃ (d : Delivery) (t : State), exec .step s = .next t ∧ d.poll.length = s.cfg.lit.pollBits ∧
      LineAnswers (if s.cfg.primaryPollLatch then s.env.pulse else s.env) .primary d.poll ∧
      t.env.nextP = s.env.nextP.drop s.cfg.lit.pollBits ∧
      (¬d.Attempts s →
        t.regs = pollRegs s.regs d ∧ t.env.trace = s.env.trace ++ pollEvents s.cfg d ∧ t.env.nextS = s.env.nextS) ∧
      (d.Attempts s →
        let c := s.cfg
        let i := s.regs.index.toNat
        let line := d.payload.flatten ++ d.sum
        let before := if d.Starts s then startRegs (pollRegs s.regs d) else pollRegs s.regs d
        let after := attemptRegs c i d before
        let asserts : List Event := if d.Starts s then List.replicate c.lit.weAssertCount .weSet else []
        let events := s.env.trace ++ pollEvents c d ++ asserts ++ attemptEvents c i d
        d.Sized c ∧ s.env.nextS.take line.length <+: line ∧ t.env.nextS = s.env.nextS.drop line.length ∧
          (d.localSum c ≠ wordOfBits d.sum → t.regs = retryRegs after ∧ t.env.trace = events ++ [.pulse]) ∧
          (d.localSum c = wordOfBits d.sum → i + 1 ≠ c.lit.nBlocks →
            t.regs = acceptRegs i after ∧ t.env.trace = events) ∧
          (d.localSum c = wordOfBits d.sum → i + 1 = c.lit.nBlocks →
            t.regs = completeRegs after ∧ t.env.trace = events ++ [.weClr]))

/-- R131, R24. What a `step` command leaves alone: `DATA`, the error record, the host's inputs and reply, the configuration, the
low strobe; and without an attempt, every register but `POLL` and the result fields, the memory and the flip-flop as well. -/
def Obligations.StepCommandFrame : Prop :=
  ∀ s t : State, exec .step s = .next t →
    t.regs.data = s.regs.data ∧ t.regs.errc = s.regs.errc ∧ t.host = s.host ∧ t.reply = s.reply ∧ t.cfg = s.cfg ∧
      (s.env.stbP = .low → t.env.stbP = .low) ∧
      (t.regs.last = .none →
        t.regs = { s.regs with started := false, last := .none, poll := t.regs.poll } ∧ t.env.mem = s.env.mem ∧
          t.env.latch = s.env.latch)

/-- R133. The start transition is taken exactly in Idle on a poll value equal to `START_PATTERN`; then the latch is asserted 15 times
in a row, once and for all, and `WE`, `MODE` and `STARTED` are 1. Otherwise the latch is not asserted, and in Idle the value only goes
into `POLL`. -/
def Obligations.StartAssertsLatch : Prop :=
  ∀ s t : State, s.Inv → s.cfg.lit = Literals.document → exec .step s = .next t →
    ∃ evs : List Event, t.env.trace = s.env.trace ++ evs ∧
      (t.regs.started = true ↔ s.regs.mode = .idle ∧ t.regs.poll = s.cfg.plat.startPattern) ∧
      (t.regs.started = true → t.regs.we = true ∧ t.regs.mode = .transferring ∧
        ∃ pre post : List Event, evs = pre ++ List.replicate 15 .weSet ++ post ∧ .weSet ∉ pre ∧ .weSet ∉ post) ∧
      (t.regs.started = false → .weSet ∉ evs) ∧
      (t.regs.started = false → s.regs.mode = .idle →
        t.regs = { s.regs with started := false, last := .none, poll := t.regs.poll })

/-- R193, R131. On a start every assertion comes before the first memory write, with only the continue strobe and the reads of the
byte that is written between them (log 27). -/
def Obligations.AssertionsPrecedeWrites : Prop :=
  ∀ s t : State, exec .step s = .next t → t.regs.started = true →
    ∃ (pre post : List Event) (bits : List Bool) (a : Nat) (v : Byte),
      t.env.trace = s.env.trace ++ pre ++ List.replicate s.cfg.lit.weAssertCount .weSet ++
        .pulse :: (bits.map .rdS ++ .memW a v :: post) ∧
        bits.length = s.cfg.lit.payloadReadBits ∧ (∀ ev ∈ pre, isMemoryEvent ev = false) ∧ .weSet ∉ pre ∧ .weSet ∉ post

/-- R139. On a mismatch the attempt emits one more strobe, its last event, sets `LAST` to 0b10, and leaves `INDEX`, `MODE` and `WE` as the
start phase left them, and the bytes written as written. -/
def Obligations.MismatchRequestsRetry : Prop :=
  ∀ s t : State, exec .step s = .next t →
    (t.regs.last = .retry ↔ t.regs.last ≠ .none ∧ t.regs.lcrc ≠ t.regs.rxcrc) ∧
      (t.regs.last = .retry → t.regs.index = s.regs.index ∧ t.regs.mode = .transferring ∧
        (s.regs.mode = .transferring → t.regs.we = s.regs.we) ∧ (s.regs.mode = .idle → t.regs.we = true) ∧
        t.env.mem = (receiveBlock (pollAndStart s)).env.mem ∧
        t.env.trace = (receiveBlock (pollAndStart s)).env.trace ++ [.pulse])

/-- R140. On a match `INDEX` advances by 1 with `LAST` 0b01 and no further event; where it would reach `N_BLOCKS`, one `WeClr` is sent, `WE` and `INDEX` are 0,
`MODE` is Idle and `LAST` is 0b11. For `N_BLOCKS` 65536, that `INDEX + 1` is compared exactly is the model's reading (log 21). -/
def Obligations.MatchAdvancesOrCompletes : Prop :=
  ∀ s t : State, exec .step s = .next t → t.regs.last ≠ .none → t.regs.lcrc = t.regs.rxcrc →
    (s.regs.index.toNat + 1 ≠ s.cfg.lit.nBlocks →
        t.regs.index.toNat = s.regs.index.toNat + 1 ∧ t.regs.last = .accepted ∧ t.regs.mode = .transferring ∧
          t.env.trace = (receiveBlock (pollAndStart s)).env.trace) ∧
      (s.regs.index.toNat + 1 = s.cfg.lit.nBlocks →
        t.regs.index = 0 ∧ t.regs.last = .complete ∧ t.regs.mode = .idle ∧ t.regs.we = false ∧
          t.env.trace = (receiveBlock (pollAndStart s)).env.trace ++ [.weClr])

/-- R145. A poll value read while Transferring is only stored in `POLL`: the latch is not asserted, nothing is started, and the command
has the same outcome whatever `START_PATTERN` is. In Idle any value but `START_PATTERN` only sets `POLL` (and clears the result
fields, R141). -/
def Obligations.PollValueInertOutsideStart : Prop :=
  ∀ s t : State, exec .step s = .next t →
    (s.regs.mode = .transferring →
        (∃ (bits : List Bool) (rest : List Event), bits.length = s.cfg.lit.pollBits ∧ t.regs.poll = wordOfBits bits ∧
          t.env.trace = s.env.trace ++ (if s.cfg.primaryPollLatch then [.pulse] else []) ++ bits.map .rdP ++ rest ∧
          .weSet ∉ rest) ∧
        t.regs.started = false ∧
        ∀ p : Word, exec .step (s.withStartPattern p) = .next (t.withStartPattern p)) ∧
      (s.regs.mode = .idle → t.regs.poll ≠ s.cfg.plat.startPattern →
        t.regs = { s.regs with started := false, last := .none, poll := t.regs.poll } ∧ t.env.mem = s.env.mem ∧
          t.env.latch = s.env.latch)

/-- R143. How many of each event a `step` command emits, with the document's constants and the decided choices, in each case of the
table. -/
def Obligations.StepEventTally : Prop :=
  ∀ s t : State, s.cfg.lit = Literals.document → s.cfg.primaryPollLatch = true → s.cfg.crcSource = .readback →
    exec .step s = .next t → ∃ evs : List Event, t.env.trace = s.env.trace ++ evs ∧
      (t.regs.last = .none → tally evs = { pulse := 1, rdP := 16 } ∧ evs.length = 17) ∧
      (s.regs.mode = .idle → t.regs.last = .accepted →
        tally evs = { pulse := 2, rdP := 16, weSet := 15, rdS := 528, memW := 64, memR := 64 } ∧ evs.length = 689) ∧
      (s.regs.mode = .idle → t.regs.last = .retry →
        tally evs = { pulse := 3, rdP := 16, weSet := 15, rdS := 528, memW := 64, memR := 64 } ∧ evs.length = 690) ∧
      (s.regs.mode = .transferring → t.regs.last = .accepted →
        tally evs = { pulse := 2, rdP := 16, rdS := 528, memW := 64, memR := 64 } ∧ evs.length = 674) ∧
      (s.regs.mode = .transferring → t.regs.last = .retry →
        tally evs = { pulse := 3, rdP := 16, rdS := 528, memW := 64, memR := 64 } ∧ evs.length = 675) ∧
      (s.regs.mode = .transferring → t.regs.last = .complete →
        tally evs = { pulse := 2, rdP := 16, rdS := 528, memW := 64, memR := 64, weClr := 1 } ∧ evs.length = 675)

/-- R135, R136, R58. Outside the bytes of the block at `address(INDEX)` a `step` command leaves every byte of memory as it was, and a
`step` command without an attempt leaves all of them. -/
def Obligations.StepWritesOnlyItsBlock : Prop :=
  ∀ s t : State, exec .step s = .next t →
    (∀ a : Nat, a < address s.cfg s.regs.index.toNat ∨ address s.cfg s.regs.index.toNat + s.cfg.lit.blockBytes ≤ a →
        Memory.read t.env.mem a = Memory.read s.env.mem a) ∧
      (t.regs.last = .none → t.env.mem = s.env.mem)

/-- R58, R59. With a destination that stores every write, the memory after a `step` command is what its write events stored, and every
read answers the last byte stored at its address, where one is known. -/
def Obligations.StoringMemoryFollowsTrace : Prop :=
  ∀ s t : State, s.cfg.plat.destAccepts = .storeAlways → exec .step s = .next t →
    ∃ evs : List Event, t.env.trace = s.env.trace ++ evs ∧ t.env.mem = storeEvents s.env.mem evs ∧
      ∀ (pre post : List Event) (a : Nat) (v b : Byte), evs = pre ++ .memR a v :: post →
        Memory.read (storeEvents s.env.mem pre) a = some b → v = b

/-- R58, R59, D26. What the memory holds after a `step` command by `DEST_ACCEPTS`. With `store-if-latched` the flip-flop at the
attempt decides: set, every write event is stored; clear, none is; and a read answers what the memory then holds, where known. With
`any` nothing is known of a written byte, and every read answers a draw (log 6), a chosen one first (log 3). The flip-flop at the attempt is the one after the
command, unless that completed the transfer, and the one before it, unless that started one (log 7). -/
def Obligations.MemoryFollowsDestAccepts : Prop :=
  ∀ s t : State, exec .step s = .next t →
    ∃ (evs : List Event) (latch : Bool), t.env.trace = s.env.trace ++ evs ∧
      (t.regs.last ≠ .complete → latch = t.env.latch) ∧ (t.regs.started = false → latch = s.env.latch) ∧
      (s.cfg.plat.destAccepts = .storeIfLatched →
        (latch = true → t.env.mem = storeEvents s.env.mem evs) ∧ (latch = false → t.env.mem = s.env.mem) ∧
          ∀ (a : Nat) (v b : Byte), .memR a v ∈ evs → Memory.read t.env.mem a = some b → v = b) ∧
      (s.cfg.plat.destAccepts = .any →
        (∀ a : Nat, (∃ v, .memW a v ∈ evs) → Memory.read t.env.mem a = none) ∧
          (∀ a : Nat, (∀ v, .memW a v ∉ evs) → Memory.read t.env.mem a = Memory.read s.env.mem a) ∧
          ∀ (pre post : List Event) (a : Nat) (v : Byte), evs = pre ++ .memR a v :: post →
            v = (s.env.nextM[(tally pre).memR]?).getD (Config.memoryDraw a (s.env.trace ++ pre)))

/-- R38, D26, I5 (log 3, log 7). The external flip-flop after a `step` command: drawn anew at every assertion of a start and at the
de-assertion of a completion, the chosen draws first, then the free draw at the trace of that moment; else as before. -/
def Obligations.FlipFlopIsDrawn : Prop :=
  ∀ s t : State, exec .step s = .next t →
    t.env.nextL = s.env.nextL.drop (latchDraws s.cfg t.regs) ∧
      (latchDraws s.cfg t.regs = 0 → t.env.latch = s.env.latch) ∧
      (t.regs.last = .complete →
        t.env.latch = (s.env.nextL[latchDraws s.cfg t.regs - 1]?).getD (Config.latchDraw t.env.trace)) ∧
      (t.regs.started = true → t.regs.last ≠ .complete → 0 < s.cfg.lit.weAssertCount →
        ∃ pre post : List Event,
          t.env.trace = s.env.trace ++ pre ++ List.replicate s.cfg.lit.weAssertCount .weSet ++ post ∧
            .weSet ∉ pre ∧ .weSet ∉ post ∧
            t.env.latch = (s.env.nextL[s.cfg.lit.weAssertCount - 1]?).getD
              (Config.latchDraw (s.env.trace ++ pre ++ List.replicate s.cfg.lit.weAssertCount .weSet)))

/-- R38, R40, R58, R59, D26. Whatever instruction runs, the environment after it is the one that its events leave, one after the
other: every line bit and memory answer is the environment's at that moment, the flip-flop is drawn at each assertion and
de-assertion, and each write stores by `DEST_ACCEPTS` and the flip-flop of that moment (log 3, log 6, log 7). -/
def Obligations.EnvironmentFollowsEvents : Prop :=
  ∀ (i : Instr) (s t : State), exec i s = .next t →
    ∃ evs : List Event, t.env.trace = s.env.trace ++ evs ∧ Env.FollowsTo s.cfg s.env evs t.env

/-- R138. The two choices of `CRC_SOURCE` leave the same registers and the same memory when the destination stores every write. -/
def Obligations.ReadbackAgreesWithReceived : Prop :=
  ∀ s t : State, s.cfg.plat.destAccepts = .storeAlways → s.cfg.crcSource = .readback → exec .step s = .next t →
    ∃ u, exec .step { s with cfg := { s.cfg with crcSource := .received } } = .next u ∧ u.regs = t.regs ∧
      u.env.mem = t.env.mem

/-- R138, R96. The local checksum starts from `CRC_INIT` whatever `CRC` held: another `CRC` changes nothing of a `step` command, but that
without an attempt it stays in `CRC`. -/
def Obligations.StepIgnoresSeed : Prop :=
  ∀ (s t : State) (v : Word), exec .step s = .next t →
    (t.regs.last ≠ .none → exec .step (s.withCrc v) = .next t) ∧
      (t.regs.last = .none → exec .step (s.withCrc v) = .next (t.withCrc v))

/-- 93 I12. Outside `[0, N_BLOCKS)` a `step` command is refused by name, and nowhere else (the model's form of "refuse", log 11). -/
def Obligations.StepRefusedOutsideIndexRange : Prop :=
  ∀ s : State, exec .step s = .refused .indexOutOfRange ↔ s.cfg.lit.nBlocks ≤ s.regs.index.toNat

/-- R51, R52. The address of block `i` by the bank composition, which is `DEST_BASE + 64 * i`; neighbouring blocks are 64 apart, the map is
injective, and the blocks partition the destination window. -/
def Obligations.BlocksTileTheWindow : Prop :=
  ∀ c : Config, c.lit = Literals.document →
    (∀ i, i < 8192 →
        address c i = (c.plat.baseBank + 64 * i / c.plat.bankSize) * c.plat.bankSize + 64 * i % c.plat.bankSize ∧
        address c i = c.plat.destBase + 64 * i) ∧
      (∀ i, i + 1 < 8192 → address c (i + 1) - address c i = 64) ∧
      (∀ i j, i < 8192 → j < 8192 → address c i = address c j → i = j) ∧
      ∀ a, InDestination c a ↔ ∃ i, (i < 8192 ∧ address c i ≤ a ∧ a ≤ address c i + 63) ∧
        ∀ j, j < 8192 → address c j ≤ a → a ≤ address c j + 63 → j = i

/-! ## The whole machine -/

/-- The invariant holds at reset, for every configuration. -/
def Obligations.ResetHasInvariant : Prop := State.reset.Inv ∧ ∀ c : Config, (State.resetWith c).Inv

/-- R26, R29, R30, R32, R38, R50. Every step keeps the invariant: `WE = MODE`, `INDEX` in range and 0 in Idle, the cursors at a block of the
destination window, the strobe low, and the memory canonical and inside the window. -/
def Obligations.EveryStepKeepsInvariant : Prop := ∀ s t : State, s.Inv → step s = .next t → t.Inv

/-- R12, R40, R174. A state with the invariant always has a next state, whatever the input and whatever the draws: the machine never
stops. -/
def Obligations.InvariantStatesNeverStop : Prop := ∀ s : State, s.Inv → ∃ t, step s = .next t

/-- R144. `WE = MODE` is kept by every step; reset makes both 0; no instruction but `step` writes either; and a `step` command that changes
`MODE` changes `WE` with it. -/
def Obligations.WriteEnableFollowsMode : Prop :=
  (∀ s t : State, LatchFollowsMode s.regs → step s = .next t → LatchFollowsMode t.regs) ∧
    (State.reset.regs.we = false ∧ State.reset.regs.mode = .idle) ∧
    (∀ s : State, (deviceReset s).regs.we = false ∧ (deviceReset s).regs.mode = .idle) ∧
    (∀ (i : Instr) (s t : State), i ≠ .step → exec i s = .next t → t.regs.mode = s.regs.mode ∧ t.regs.we = s.regs.we) ∧
    ∀ s t : State, exec .step s = .next t →
      (s.regs.mode = .idle → t.regs.mode = .transferring → t.regs.started = true ∧ t.regs.we = true) ∧
        (s.regs.mode = .transferring → t.regs.mode = .idle → t.regs.last = .complete ∧ t.regs.we = false)

/-- R25 to R34. Only `step` writes the session, the result fields, `POLL`, `RXCRC`, `LCRC` and the cursors, drives the latch or touches the
memory. -/
def Obligations.OnlyStepMovesTheSession : Prop :=
  ∀ (i : Instr) (s t : State), i ≠ .step → exec i s = .next t →
    t.regs = { s.regs with crc := t.regs.crc, data := t.regs.data, errc := t.regs.errc } ∧
      t.env.mem = s.env.mem ∧ t.env.latch = s.env.latch ∧
      ∃ evs, t.env.trace = s.env.trace ++ evs ∧ ∀ ev ∈ evs, ev ≠ .weSet ∧ ev ≠ .weClr ∧ isMemoryEvent ev = false

/-- R40, R50. A step only appends to the trace; every memory event it appends lies in the destination window; and only a `step` command
makes a memory event. -/
def Obligations.MemoryEventsStayInWindow : Prop :=
  ∀ s t : State, step s = .next t →
    ∃ evs : List Event, t.env.trace = s.env.trace ++ evs ∧ (∀ ev ∈ evs, EventInWindow s.cfg ev) ∧
      ((∃ ev ∈ evs, isMemoryEvent ev = true) → ∃ rest, CommandPending s 0x0006 rest)

/-- R142, R198. The only ways out of Transferring are a device reset and the accept of block `N_BLOCKS - 1`. -/
def Obligations.TransferEndsOnlyByCompletionOrReset : Prop :=
  ∀ s t : State, s.regs.mode = .transferring → step s = .next t → t.regs.mode = .idle →
    (∃ i rest, s.host = i :: rest ∧ i.isReset = true) ∨
      (∃ rest, CommandPending s 0x0006 rest) ∧ s.regs.index.toNat + 1 = s.cfg.lit.nBlocks ∧
        t.regs.lcrc = t.regs.rxcrc ∧ t.regs.last = .complete

/-- R195. While Transferring no command but `step` makes an event, so that no host strobe reaches the remote peer. -/
def Obligations.NoHostStrobeWhileTransferring : Prop :=
  ∀ (i : Instr) (s t : State), s.regs.mode = .transferring → i ≠ .step → exec i s = .next t → t.env = s.env

/-- R146 item 1, the retry law: a rejected attempt leaves `INDEX`; the next attempt opens the same `BSTART`, and if it is accepted `INDEX` is
one more (0 where that completes the transfer). For `N_BLOCKS` 65536 the last two clauses rest on the exact `INDEX + 1` (log 21). -/
def Obligations.RetryRedeliversSameBlock : Prop :=
  ∀ s t u : State, exec .step s = .next t → t.regs.last = .retry → exec .step t = .next u →
    t.regs.index = s.regs.index ∧ u.regs.bstart = t.regs.bstart ∧ u.regs.last ≠ .none ∧
      (u.regs.last = .accepted → u.regs.index.toNat = s.regs.index.toNat + 1) ∧
      (u.regs.last = .complete → u.regs.index = 0 ∧ s.regs.index.toNat + 1 = s.cfg.lit.nBlocks)

/-- R146 item 2, the completion law: from Idle with `INDEX` 0, when the first poll is the start pattern and every attempt's received checksum
equals its local one, exactly `N_BLOCKS` `step` commands bring the session back to Idle with `INDEX` 0, `WE` 0 and `LAST` 0b11, `BSTART` at the
last block; no earlier one leaves Transferring, and the one `WeClr` is the last event of the last command. For `N_BLOCKS` 65536 it
rests on the exact `INDEX + 1` (log 21). -/
def Obligations.TransferCompletesAfterNBlocks : Prop :=
  ∀ run : Nat → State, (run 0).regs.mode = .idle → (run 0).regs.index = 0 →
    (∀ k, k < (run 0).cfg.lit.nBlocks → exec .step (run k) = .next (run (k + 1))) →
    (run 1).regs.poll = (run 0).cfg.plat.startPattern →
    (∀ k, k < (run 0).cfg.lit.nBlocks → (run (k + 1)).regs.rxcrc = (run (k + 1)).regs.lcrc) →
      let n := (run 0).cfg.lit.nBlocks
      (∀ k, 1 ≤ k → k < n → (run k).regs.mode = .transferring ∧ (run k).regs.index.toNat = k) ∧
        (run n).regs.mode = .idle ∧ (run n).regs.we = false ∧ (run n).regs.last = .complete ∧ (run n).regs.index = 0 ∧
        (run n).regs.bstart.toNat = (run 0).cfg.plat.destBase + (run 0).cfg.lit.blockBytes * (n - 1) ∧
        ∃ evs, (run n).env.trace = (run 0).env.trace ++ evs ++ [.weClr] ∧ .weClr ∉ evs

/-- R8, R12. Parameters that break a constraint of R8 (or that leave the rules without a meaning, log 5) are refused by name, and all others
make a machine in its reset state (log 25). -/
def Obligations.BrokenConfigurationRefused : Prop :=
  ∀ (l : Literals) (p : Platform) (latch : Bool) (src : CrcSource),
    (State.configure l p latch src = .refused .badConfiguration ↔ ¬(l.Sound ∧ p.Fits l)) ∧
      (l.Sound ∧ p.Fits l → ∃ t, State.configure l p latch src = .next t ∧ t.regs = Regs.reset l ∧ t.cfg.lit = l ∧
        t.cfg.plat = p ∧ t.cfg.primaryPollLatch = latch ∧ t.cfg.crcSource = src)
end

