-- ==== Sys2Proof/Laws/Checksum.lean ====
section
/-! SUPPORT. What the table ROM holds and what fits `CRC_WIDTH` (00_scope.md R7, 40_checksum.md R91). -/

namespace Sys2Proof.Machine

/-- A value kept to `CRC_WIDTH` bits is the value modulo 2 to that width. -/
theorem toCrcWidth_toNat (width : Nat) (w : Word) : (toCrcWidth width w).toNat = w.toNat % 2 ^ width := by
  rw [toCrcWidth, BitVec.toNat_ofNat]
  exact Nat.mod_eq_of_lt (lt_of_le_of_lt (Nat.mod_le _ _) w.isLt)

/-- A value that fits `CRC_WIDTH` bits is kept as it is. -/
theorem toCrcWidth_of_lt {width : Nat} {w : Word} (h : w.toNat < 2 ^ width) : toCrcWidth width w = w :=
  BitVec.eq_of_toNat_eq (by rw [toCrcWidth_toNat, Nat.mod_eq_of_lt h])

/-- The generated table: its length, and entry `j` is the generator's. -/
theorem crcGenerateFrom_spec (poly : Word) (k : Nat) : ∀ i, (crcGenerateFrom poly k i).length = k ∧
    ∀ j, j < k → (crcGenerateFrom poly k i)[j]? = some (crcGenerate poly (i + j)) := by
  induction k with
  | zero => exact fun i => ⟨rfl, by simp⟩
  | succ k ih =>
    intro i
    refine ⟨by simp [crcGenerateFrom, (ih (i + 1)).1], fun j hj => ?_⟩
    cases j with
    | zero => simp [crcGenerateFrom]
    | succ j => simpa [crcGenerateFrom, Nat.add_assoc, Nat.add_comm 1] using (ih (i + 1)).2 j (by omega)

/-- A shift step of the generator stays within the width of the polynomial. -/
theorem crcShift_lt {width : Nat} {poly c : Word} (hp : poly.toNat < 2 ^ width) (hc : c.toNat < 2 ^ width) :
    (crcShift poly c).toNat < 2 ^ width := by
  have h : (c >>> 1).toNat < 2 ^ width := by
    rw [BitVec.toNat_ushiftRight, Nat.shiftRight_one]
    omega
  unfold crcShift
  split
  · rw [BitVec.toNat_xor]
    exact Nat.xor_lt_two_pow h hp
  · exact h

/-- A generated entry for a byte index fits the width, which is at least 8. -/
theorem crcGenerate_lt {width : Nat} {poly : Word} (hp : poly.toNat < 2 ^ width) (hw : 8 ≤ width) (i : Byte) :
    (crcGenerate poly i.toNat).toNat < 2 ^ width := by
  have hi : (BitVec.ofNat 16 i.toNat).toNat < 2 ^ width := by
    have := Nat.pow_le_pow_right (n := 2) (by decide) hw
    have := i.isLt
    rw [BitVec.toNat_ofNat]
    omega
  unfold crcGenerate
  generalize BitVec.ofNat 16 i.toNat = c at hi
  generalize 8 = n
  induction n with
  | zero => exact hi
  | succ n ih => exact crcShift_lt hp ih

/-- Every entry read from the table fits `CRC_WIDTH`. -/
theorem tableEntry_lt (l : Literals) (i : Byte) : (tableEntry l i).toNat < 2 ^ l.crcWidth := by
  rw [tableEntry, romEntry, toCrcWidth_toNat]
  exact Nat.mod_lt _ (Nat.two_pow_pos _)

end Sys2Proof.Machine
end

