-- ==== Sys2Proof/Laws/Decode.lean ====
section
/-! SUPPORT. The fields of a command word and the word with given fields undo each other (30_encoding.md R70). -/

namespace Sys2Proof.Machine

theorem opField_commandWord (arg op : Byte) : opField (commandWord arg op) = op := by
  unfold opField commandWord
  ext i hi
  rw [BitVec.getElem_extractLsb', Nat.zero_add, BitVec.getLsbD_append, if_pos hi, BitVec.getLsbD_eq_getElem]

theorem argField_commandWord (arg op : Byte) : argField (commandWord arg op) = arg := by
  unfold argField commandWord
  ext i hi
  rw [BitVec.getElem_extractLsb', BitVec.getLsbD_append, if_neg (by omega), Nat.add_sub_cancel_left,
    BitVec.getLsbD_eq_getElem]

theorem commandWord_fields (w : Word) : commandWord (argField w) (opField w) = w := by
  unfold commandWord argField opField
  ext i hi
  rw [BitVec.getElem_append]
  split
  · rw [BitVec.getElem_extractLsb', Nat.zero_add, BitVec.getLsbD_eq_getElem]
  · rw [BitVec.getElem_extractLsb', ← BitVec.getLsbD_eq_getElem]
    congr 1
    omega

/-- The count of a form C `ARG` determines it (R71). -/
theorem countArg_countField : ∀ arg : Byte, countZeroField arg = 0 → countArg (countField arg) = arg := by decide +kernel

theorem decodeForm_ok {f : Form} {arg : Byte} {i j : Instr} :
    decodeForm f arg i = .ok j ↔ argMatches f arg = true ∧ i = j := by
  unfold decodeForm
  split <;> simp_all

/-- A write at offset 0x00 is a command, and a write at offset 0x04 is the seed write (20_memory.md R55). -/
theorem decodeWrite_cmd (v : Word) : decodeWrite 0x00 v = decodeCommand v := by simp [decodeWrite]

theorem decodeWrite_crc (v : Word) : decodeWrite 0x04 v = .ok (.wrCrc v) := by simp [decodeWrite]

/-- A word written to `CMD` that matches no row of the opcode table breaks the operand check (R73, R74). -/
theorem decodeCommand_reject {w : Word} {r : Reject} (h : decodeCommand w = .error r) : r = .badArg := by
  unfold decodeCommand decodeOp at h
  split at h
  any_goals (unfold decodeForm at h; split at h <;> cases h; rfl)
  cases h

end Sys2Proof.Machine
end

