-- ==== Sys2Proof/Laws/State.lean ====
section
/-! SUPPORT. What each named update of the state and of the environment leaves in each field. -/

namespace Sys2Proof.Machine

section
variable (s : State) (r : Regs) (e : Env) (h : List HostInput) (v : Option Word) (w : Word) (c : Option CmdError)

@[simp] theorem State.withRegs_regs : (s.withRegs r).regs = r := rfl
@[simp] theorem State.withRegs_env : (s.withRegs r).env = s.env := rfl
@[simp] theorem State.withRegs_host : (s.withRegs r).host = s.host := rfl
@[simp] theorem State.withRegs_reply : (s.withRegs r).reply = s.reply := rfl
@[simp] theorem State.withRegs_cfg : (s.withRegs r).cfg = s.cfg := rfl

@[simp] theorem State.withEnv_regs : (s.withEnv e).regs = s.regs := rfl
@[simp] theorem State.withEnv_env : (s.withEnv e).env = e := rfl
@[simp] theorem State.withEnv_host : (s.withEnv e).host = s.host := rfl
@[simp] theorem State.withEnv_reply : (s.withEnv e).reply = s.reply := rfl
@[simp] theorem State.withEnv_cfg : (s.withEnv e).cfg = s.cfg := rfl

@[simp] theorem State.withHost_regs : (s.withHost h).regs = s.regs := rfl
@[simp] theorem State.withHost_env : (s.withHost h).env = s.env := rfl
@[simp] theorem State.withHost_host : (s.withHost h).host = h := rfl
@[simp] theorem State.withHost_reply : (s.withHost h).reply = s.reply := rfl
@[simp] theorem State.withHost_cfg : (s.withHost h).cfg = s.cfg := rfl

@[simp] theorem State.withReply_regs : (s.withReply v).regs = s.regs := rfl
@[simp] theorem State.withReply_env : (s.withReply v).env = s.env := rfl
@[simp] theorem State.withReply_host : (s.withReply v).host = s.host := rfl
@[simp] theorem State.withReply_reply : (s.withReply v).reply = v := rfl
@[simp] theorem State.withReply_cfg : (s.withReply v).cfg = s.cfg := rfl

@[simp] theorem State.withCrc_regs : (s.withCrc w).regs = { s.regs with crc := w } := rfl
@[simp] theorem State.withCrc_env : (s.withCrc w).env = s.env := rfl
@[simp] theorem State.withCrc_host : (s.withCrc w).host = s.host := rfl
@[simp] theorem State.withCrc_reply : (s.withCrc w).reply = s.reply := rfl
@[simp] theorem State.withCrc_cfg : (s.withCrc w).cfg = s.cfg := rfl

@[simp] theorem State.withData_regs : (s.withData w).regs = { s.regs with data := w } := rfl
@[simp] theorem State.withData_env : (s.withData w).env = s.env := rfl
@[simp] theorem State.withData_host : (s.withData w).host = s.host := rfl
@[simp] theorem State.withData_reply : (s.withData w).reply = s.reply := rfl
@[simp] theorem State.withData_cfg : (s.withData w).cfg = s.cfg := rfl

@[simp] theorem State.withErrc_regs : (s.withErrc c).regs = { s.regs with errc := c } := rfl
@[simp] theorem State.withErrc_env : (s.withErrc c).env = s.env := rfl
@[simp] theorem State.withErrc_host : (s.withErrc c).host = s.host := rfl
@[simp] theorem State.withErrc_reply : (s.withErrc c).reply = s.reply := rfl
@[simp] theorem State.withErrc_cfg : (s.withErrc c).cfg = s.cfg := rfl

end

section
variable (e : Env) (ev : Event) (l : Level)

@[simp] theorem Env.emit_trace : (e.emit ev).trace = e.trace ++ [ev] := rfl
@[simp] theorem Env.emit_stbP : (e.emit ev).stbP = e.stbP := rfl
@[simp] theorem Env.emit_latch : (e.emit ev).latch = e.latch := rfl
@[simp] theorem Env.emit_mem : (e.emit ev).mem = e.mem := rfl
@[simp] theorem Env.emit_nextP : (e.emit ev).nextP = e.nextP := rfl
@[simp] theorem Env.emit_nextS : (e.emit ev).nextS = e.nextS := rfl
@[simp] theorem Env.emit_nextM : (e.emit ev).nextM = e.nextM := rfl
@[simp] theorem Env.emit_nextL : (e.emit ev).nextL = e.nextL := rfl

@[simp] theorem Env.driveStrobe_trace : (e.driveStrobe l).trace = e.trace := rfl
@[simp] theorem Env.driveStrobe_stbP : (e.driveStrobe l).stbP = l := rfl
@[simp] theorem Env.driveStrobe_latch : (e.driveStrobe l).latch = e.latch := rfl
@[simp] theorem Env.driveStrobe_mem : (e.driveStrobe l).mem = e.mem := rfl
@[simp] theorem Env.driveStrobe_nextP : (e.driveStrobe l).nextP = e.nextP := rfl
@[simp] theorem Env.driveStrobe_nextS : (e.driveStrobe l).nextS = e.nextS := rfl
@[simp] theorem Env.driveStrobe_nextM : (e.driveStrobe l).nextM = e.nextM := rfl
@[simp] theorem Env.driveStrobe_nextL : (e.driveStrobe l).nextL = e.nextL := rfl

@[simp] theorem Env.pulse_trace : (e.pulse).trace = e.trace ++ [.pulse] := rfl
@[simp] theorem Env.pulse_stbP : (e.pulse).stbP = .low := rfl
@[simp] theorem Env.pulse_latch : (e.pulse).latch = e.latch := rfl
@[simp] theorem Env.pulse_mem : (e.pulse).mem = e.mem := rfl
@[simp] theorem Env.pulse_nextP : (e.pulse).nextP = e.nextP := rfl
@[simp] theorem Env.pulse_nextS : (e.pulse).nextS = e.nextS := rfl
@[simp] theorem Env.pulse_nextM : (e.pulse).nextM = e.nextM := rfl
@[simp] theorem Env.pulse_nextL : (e.pulse).nextL = e.nextL := rfl

end

end Sys2Proof.Machine
end

