-- ==== Sys2Proof/Laws/Ops.lean ====
section
/-! SUPPORT. One lemma for each shared operation that says all it can do. -/

namespace Sys2Proof.Machine

/-- Recording a command error either records it or, with one recorded already, does nothing (60_exceptions.md R171). -/
theorem raiseCmdError_cases (c : CmdError) (s : State) :
    (s.regs.errc = none ∧ raiseCmdError c s = s.withErrc (some c)) ∨
      (∃ d, s.regs.errc = some d ∧ raiseCmdError c s = s) := by
  unfold raiseCmdError
  cases h : s.regs.errc with
  | none => exact .inl ⟨rfl, rfl⟩
  | some d => exact .inr ⟨d, rfl, rfl⟩

/-- A pulse leaves the strobe low and appends one event. -/
theorem Env.pulse_eq (e : Env) : e.pulse = { e with stbP := .low, trace := e.trace ++ [.pulse] } := rfl

theorem Env.chosen_emit (e : Env) (ev : Event) (ep : Endpoint) : (e.emit ev).chosen ep = e.chosen ep := by
  cases ep <;> rfl

theorem Env.chosen_useUp (e : Env) (n : Nat) (ep : Endpoint) : (e.useUp n ep).chosen ep = (e.chosen ep).drop n := by
  cases ep <;> rfl

theorem Env.useUp_trace (e : Env) (n : Nat) (ep : Endpoint) : (e.useUp n ep).trace = e.trace := by
  cases ep <;> rfl

/-- One strobed read answers the chosen bit, or the free draw, and uses up one chosen bit (10_state.md R40). -/
theorem Env.readBit_eq (e : Env) (ep : Endpoint) :
    e.readBit ep =
      (((e.chosen ep)[0]?).getD (Config.lineDraw ep e.trace),
        (e.useUp 1 ep).emit (readEvent ep (((e.chosen ep)[0]?).getD (Config.lineDraw ep e.trace)))) := by
  cases ep
  · cases h : e.nextP <;> simp [Env.readBit, Env.drawLine, Env.chosen, Env.useUp, h]
    all_goals cases e; simp_all
  · cases h : e.nextS <;> simp [Env.readBit, Env.drawLine, Env.chosen, Env.useUp, h]
    all_goals cases e; simp_all

/-- The environment after some strobed reads: the chosen bits used up, one event for each read (41_link.md R112, R117). -/
def Env.afterReads (e : Env) (ep : Endpoint) (bits : List Bool) : Env :=
  { e.useUp bits.length ep with trace := e.trace ++ bits.map (readEvent ep) }

theorem Env.readBitsFrom_spec (ep : Endpoint) (k : Nat) : ∀ (i : Nat) (v : Word) (e : Env),
    ∃ bits : List Bool, bits.length = k ∧ LineAnswers e ep bits ∧
      Env.readBitsFrom ep k i v e = (v ||| (wordOfBits bits <<< i), e.afterReads ep bits) := by
  induction k with
  | zero =>
    intro i v e
    refine ⟨[], rfl, fun i hi => absurd hi (by simp), ?_⟩
    cases ep <;> simp [Env.readBitsFrom, wordOfBits, Env.afterReads, Env.useUp]
  | succ k ih =>
    intro i v e
    obtain ⟨bits, hlen, hans, heq⟩ :=
      ih (i + 1) (v ||| ((BitVec.ofBool (e.readBit ep).1).setWidth 16 <<< i)) (e.readBit ep).2
    refine ⟨(e.readBit ep).1 :: bits, by simp [hlen], ?_, ?_⟩
    · intro j hj
      cases j with
      | zero => simp [Env.readBit_eq]
      | succ j =>
        have := hans j (by simpa using hj)
        rw [List.getElem?_cons_succ, this]
        simp [Env.readBit_eq, Env.chosen_emit, Env.chosen_useUp, Env.useUp_trace]
    · unfold Env.readBitsFrom
      simp only [heq]
      refine Prod.ext ?_ ?_
      · simp only [wordOfBits, BitVec.shiftLeft_or_distrib, ← BitVec.shiftLeft_add]
        rw [Nat.add_comm 1 i, BitVec.or_assoc]
      · simp only [Env.readBit_eq]
        cases ep <;> simp [Env.afterReads, Env.useUp, Env.emit]

/-- `ReadBits` (41_link.md R112): the answers in read order, accumulated least significant bit first. -/
theorem Env.readBits_spec (e : Env) (ep : Endpoint) (n : Nat) :
    ∃ bits : List Bool, bits.length = n ∧ LineAnswers e ep bits ∧
      e.readBits ep n = (wordOfBits bits, e.afterReads ep bits) := by
  obtain ⟨bits, h1, h2, h3⟩ := Env.readBitsFrom_spec ep n 0 0 e
  exact ⟨bits, h1, h2, by rw [Env.readBits, h3]; simp⟩

/-- Strobed reads change the trace and the chosen draws of their endpoint, nothing else. -/
theorem Env.afterReads_frame (e : Env) (ep : Endpoint) (bits : List Bool) :
    (e.afterReads ep bits).stbP = e.stbP ∧ (e.afterReads ep bits).latch = e.latch ∧ (e.afterReads ep bits).mem = e.mem ∧
      (e.afterReads ep bits).nextM = e.nextM ∧ (e.afterReads ep bits).nextL = e.nextL := by
  cases ep <;> simp [Env.afterReads, Env.useUp]

/-- Bit `i` of the value of line bits is the bit of read `i` (20_memory.md R54). -/
theorem wordOfBits_getLsbD (bits : List Bool) (i : Nat) (hi : i < 16) :
    (wordOfBits bits).getLsbD i = (bits[i]?).getD false := by
  induction bits generalizing i with
  | nil => simp [wordOfBits]
  | cons b bs ih =>
    cases i with
    | zero => cases b <;> simp [wordOfBits]
    | succ i =>
      have := ih i (by omega)
      cases b <;> simp_all [wordOfBits]

/-- Assertions of the latch in a row: one event each; only the flip-flop and its draws change beside the trace. -/
theorem Env.weSetTimes_spec (k : Nat) (e : Env) :
    ∃ latch nextL, Env.weSetTimes k e =
      { e with trace := e.trace ++ List.replicate k .weSet, latch := latch, nextL := nextL } := by
  induction k generalizing e with
  | zero => exact ⟨e.latch, e.nextL, by simp [Env.weSetTimes]⟩
  | succ k ih =>
    obtain ⟨l, n, h⟩ := ih e.weSet
    refine ⟨l, n, ?_⟩
    rw [Env.weSetTimes, h]
    unfold Env.weSet Env.drawLatch
    split <;> simp [Env.emit, List.replicate_succ]

/-- One de-assertion: one event, and the flip-flop is a draw. -/
theorem Env.weClr_spec (e : Env) :
    ∃ latch nextL, e.weClr = { e with trace := e.trace ++ [.weClr], latch := latch, nextL := nextL } := by
  unfold Env.weClr Env.drawLatch
  split <;> exact ⟨_, _, rfl⟩

/-- A memory read: one event; beside it at most a chosen draw is used up. -/
theorem Env.memRead_spec (e : Env) (d : DestAccepts) (a : Nat) :
    ∃ v nextM, e.memRead d a = (v, { e with trace := e.trace ++ [.memR a v], nextM := nextM }) ∧
      (d ≠ .any → ∀ b, e.mem.read a = some b → v = b) := by
  have draw : ∃ v nextM, e.drawMemory a = (v, { e with nextM := nextM }) := by
    unfold Env.drawMemory
    split <;> exact ⟨_, _, rfl⟩
  obtain ⟨w, n, hw⟩ := draw
  unfold Env.memRead Env.answer
  cases d with
  | any => exact ⟨w, n, by simp [hw, Env.emit], fun h => absurd rfl h⟩
  | storeAlways =>
    cases hm : e.mem.read a with
    | none => exact ⟨w, n, by simp [hw, Env.emit], by simp⟩
    | some b => exact ⟨b, e.nextM, by simp [Env.emit], by simp⟩
  | storeIfLatched =>
    cases hm : e.mem.read a with
    | none => exact ⟨w, n, by simp [hw, Env.emit], by simp⟩
    | some b => exact ⟨b, e.nextM, by simp [Env.emit], by simp⟩

/-- The bank composition of 20_memory.md R51 is `DEST_BASE + BLOCK_BYTES * i`. -/
theorem address_eq (c : Config) (i : Nat) : address c i = c.plat.destBase + c.lit.blockBytes * i := by
  unfold address Platform.destBase
  simp only [Nat.add_mul, Nat.add_assoc]
  rw [Nat.div_add_mod' (c.lit.blockBytes * i) c.plat.bankSize]

/-- A block ends inside the destination window (R52). -/
theorem address_end (c : Config) {i : Nat} (h : i < c.lit.nBlocks) :
    address c i + c.lit.blockBytes ≤ c.plat.destBase + c.lit.destSize := by
  obtain ⟨-, -, hd, -⟩ := c.sound
  have : c.lit.blockBytes * (i + 1) ≤ c.lit.blockBytes * c.lit.nBlocks := Nat.mul_le_mul_left _ h
  rw [address_eq, hd, Nat.mul_comm c.lit.nBlocks]
  rw [Nat.mul_add] at this
  omega

/-- The destination window lies inside 32 bits (R8). -/
theorem destination_end (c : Config) : c.plat.destBase + c.lit.destSize ≤ 2 ^ 32 := by
  obtain ⟨-, -, -, haw, hd, -⟩ := c.fits
  exact le_trans hd (Nat.pow_le_pow_right (by decide) haw)

end Sys2Proof.Machine
end

