-- ==== Sys2Proof/Laws/Environment.lean ====
section
/-! SUPPORT. What one event leaves in the environment, and that each primitive of 00_scope.md R11 leaves exactly what its event does
(10_state.md R40). -/

namespace Sys2Proof.Machine

/-- Events one after the other, in two parts. -/
theorem Env.followsTo_append {c : Config} {a b : List Event} : ∀ {e e' : Env},
    Env.FollowsTo c e (a ++ b) e' ↔ ∃ m, Env.FollowsTo c e a m ∧ Env.FollowsTo c m b e' := by
  induction a with
  | nil => exact ⟨fun h => ⟨_, rfl, h⟩, fun ⟨_, h, h'⟩ => h ▸ h'⟩
  | cons ev a ih =>
    exact ⟨fun h => let ⟨m, h1, h2⟩ := ih.1 h.2; ⟨m, ⟨h.1, h1⟩, h2⟩,
      fun ⟨m, h1, h2⟩ => ⟨h1.1, ih.2 ⟨m, h1.2, h2⟩⟩⟩

/-- Every event ends the trace. -/
theorem Env.seeing_trace (c : Config) (e : Env) (ev : Event) : (e.seeing c ev).trace = e.trace ++ [ev] := by
  unfold Env.seeing
  cases ev <;> dsimp only <;> split <;> rfl

/-- The trace grows by the events. -/
theorem Env.FollowsTo.trace {c : Config} {evs : List Event} : ∀ {e e' : Env},
    Env.FollowsTo c e evs e' → e'.trace = e.trace ++ evs := by
  induction evs with
  | nil => intro e e' h; cases h; simp
  | cons ev evs ih => intro e e' h; rw [ih h.2, Env.seeing_trace, List.append_assoc]; rfl

/-- Only an assertion or a de-assertion draws the flip-flop. -/
theorem Env.seeing_latch (c : Config) (e : Env) {ev : Event} (h1 : ev ≠ .weSet) (h2 : ev ≠ .weClr) :
    (e.seeing c ev).latch = e.latch ∧ (e.seeing c ev).nextL = e.nextL := by
  unfold Env.seeing
  cases ev <;> dsimp only <;> (try exact ⟨rfl, rfl⟩)
  · exact absurd rfl h1
  · exact absurd rfl h2
  · split <;> exact ⟨rfl, rfl⟩
  · split <;> exact ⟨rfl, rfl⟩

section
variable (c : Config) (e : Env)

/-- `Pulse()` is its event. -/
theorem Env.pulse_follows : Env.FollowsTo c e [.pulse] e.pulse := ⟨trivial, rfl⟩

/-- `WeSet()` is its event. -/
theorem Env.weSet_follows : Env.FollowsTo c e [.weSet] e.weSet := by
  refine ⟨trivial, ?_⟩
  unfold Env.weSet Env.drawLatch
  cases h : e.nextL <;> simp [Env.emit, h, Env.FollowsTo, Env.seeing]

/-- `WeClr()` is its event. -/
theorem Env.weClr_follows : Env.FollowsTo c e [.weClr] e.weClr := by
  refine ⟨trivial, ?_⟩
  unfold Env.weClr Env.drawLatch
  cases h : e.nextL <;> simp [Env.emit, h, Env.FollowsTo, Env.seeing]

/-- Assertions in a row use up one chosen draw each, and the flip-flop is left at the last draw (D26, I5; log 7). -/
theorem Env.weSetTimes_draws (k : Nat) : ∀ e : Env,
    (Env.weSetTimes k e).nextL = e.nextL.drop k ∧
      (0 < k → (Env.weSetTimes k e).latch =
        (e.nextL[k - 1]?).getD (Config.latchDraw (e.trace ++ List.replicate k .weSet))) := by
  induction k with
  | zero => exact fun e => ⟨rfl, fun h => absurd h (Nat.lt_irrefl 0)⟩
  | succ k ih =>
    intro e
    have hone : e.weSet = { e with
        trace := e.trace ++ [.weSet]
        latch := (e.nextL.head?).getD (Config.latchDraw (e.trace ++ [.weSet]))
        nextL := e.nextL.tail } := by
      unfold Env.weSet Env.drawLatch
      cases h : e.nextL <;> simp [Env.emit, h]
    obtain ⟨h1, h2⟩ := ih e.weSet
    rw [Env.weSetTimes]
    refine ⟨by rw [h1, hone]; simp, fun _ => ?_⟩
    cases k with
    | zero => simp [Env.weSetTimes, hone, List.head?_eq_getElem?]
    | succ k => rw [h2 (Nat.succ_pos k), hone]; simp [List.replicate_succ]

/-- `ReadBit(ep)` is its event, with the bit it answers. -/
theorem Env.readBit_follows (ep : Endpoint) :
    Env.FollowsTo c e [readEvent ep (e.readBit ep).1] (e.readBit ep).2 := by
  rw [Env.readBit_eq]
  cases ep <;> refine ⟨?_, ?_⟩ <;> show _ = _ <;>
    simp [Env.chosen, List.head?_eq_getElem?, Env.seeing, Env.useUp, Env.emit, readEvent]

/-- `MemWrite(a, 1, b)` is its event. -/
theorem Env.memWrite_follows (a : Nat) (b : Byte) :
    Env.FollowsTo c e [.memW a b] (e.memWrite c.plat.destAccepts a b) := by
  refine ⟨trivial, ?_⟩
  show _ = _
  unfold Env.memWrite Env.accept Env.seeing
  cases hd : c.plat.destAccepts <;> cases hl : e.latch <;> simp [Env.emit, hl]

/-- `MemRead(a, 1)` is its event, with the byte it answers. -/
theorem Env.memRead_follows (a : Nat) :
    Env.FollowsTo c e [.memR a (e.memRead c.plat.destAccepts a).1] (e.memRead c.plat.destAccepts a).2 := by
  unfold Env.memRead Env.answer Env.drawMemory
  cases hd : c.plat.destAccepts <;> cases hm : e.mem.read a <;> cases hn : e.nextM <;>
    (refine ⟨?_, ?_⟩ <;> show _ = _ <;> simp [Env.seeing, Env.known, hd, hm, hn, Env.emit])

end

end Sys2Proof.Machine
end

