-- ==== Sys2Proof/Laws/Memory.lean ====
section
/-! SUPPORT. The laws of the destination memory: read after write, and the canonical form. -/

namespace Sys2Proof.Machine

theorem Memory.read_write_same (m : Memory) (a : Nat) (b : Byte) : (Memory.write m a b).read a = some b := by
  induction m with
  | nil => simp [Memory.write, Memory.read]
  | cons p m ih =>
    obtain ⟨k, v⟩ := p
    unfold Memory.write
    split
    · simp [Memory.read]
    · split
      · simp [Memory.read]
      · have hk : k ≠ a := by omega
        simp [Memory.read, hk, ih]

theorem Memory.read_write_other (m : Memory) {a a' : Nat} (b : Byte) (h : a' ≠ a) :
    (Memory.write m a b).read a' = Memory.read m a' := by
  induction m with
  | nil => simp [Memory.write, Memory.read, h.symm]
  | cons p m ih =>
    obtain ⟨k, v⟩ := p
    unfold Memory.write
    split
    · simp [Memory.read, h.symm]
    · split
      · have hk : k ≠ a' := by omega
        simp [Memory.read, h.symm, hk]
      · simp [Memory.read, ih]

theorem Memory.read_forget_same (m : Memory) (a : Nat) : (Memory.forget m a).read a = none := by
  induction m with
  | nil => rfl
  | cons p m ih =>
    obtain ⟨k, v⟩ := p
    by_cases hk : k = a
    · simpa [Memory.forget, hk] using ih
    · simpa [Memory.forget, hk, Memory.read] using ih

theorem Memory.read_forget_other (m : Memory) {a a' : Nat} (h : a' ≠ a) :
    (Memory.forget m a).read a' = Memory.read m a' := by
  induction m with
  | nil => rfl
  | cons p m ih =>
    obtain ⟨k, v⟩ := p
    by_cases hk : k = a
    · have hk' : k ≠ a' := by omega
      simpa [Memory.forget, hk, Memory.read, h.symm] using ih
    · simp only [Memory.forget, ne_eq, hk, not_false_eq_true, decide_true, List.filter_cons_of_pos, Memory.read] at *
      split <;> simp_all

theorem Memory.wf_iff (m : Memory) : Memory.wf m = true ↔ m.Pairwise fun p q => p.1 < q.1 := by
  simp [Memory.wf]

/-- Every entry after a write is the written one or an old one. -/
theorem Memory.mem_write {m : Memory} {a : Nat} {b : Byte} {p : Host.Cell} (h : p ∈ Memory.write m a b) :
    p = (a, b) ∨ p ∈ m := by
  induction m with
  | nil => simpa [Memory.write] using h
  | cons q m ih =>
    obtain ⟨k, v⟩ := q
    unfold Memory.write at h
    split at h
    · simpa using h
    · split at h
      · rcases List.mem_cons.1 h with h | h
        · exact .inl h
        · exact .inr (List.mem_cons_of_mem _ h)
      · rcases List.mem_cons.1 h with h | h
        · exact .inr (h ▸ List.mem_cons_self)
        · rcases ih h with h | h
          · exact .inl h
          · exact .inr (List.mem_cons_of_mem _ h)

theorem Memory.wf_write {m : Memory} (a : Nat) (b : Byte) (h : Memory.wf m = true) : Memory.wf (Memory.write m a b) = true := by
  rw [Memory.wf_iff] at *
  induction m with
  | nil => simp [Memory.write]
  | cons q m ih =>
    obtain ⟨k, v⟩ := q
    rw [List.pairwise_cons] at h
    unfold Memory.write
    split
    · rename_i hlt
      refine List.pairwise_cons.2 ⟨fun p hp => ?_, List.pairwise_cons.2 h⟩
      rcases List.mem_cons.1 hp with rfl | hp
      · exact hlt
      · exact lt_trans hlt (h.1 p hp)
    · split
      · rename_i heq
        exact List.pairwise_cons.2 ⟨fun p hp => by simpa [heq] using h.1 p hp, h.2⟩
      · rename_i hlt hne
        refine List.pairwise_cons.2 ⟨fun p hp => ?_, ih h.2⟩
        rcases Memory.mem_write hp with rfl | hp
        · exact lt_of_le_of_ne (not_lt.1 hlt) (fun hk => hne hk.symm)
        · exact h.1 p hp

theorem Memory.wf_forget {m : Memory} (a : Nat) (h : Memory.wf m = true) : Memory.wf (Memory.forget m a) = true := by
  rw [Memory.wf_iff] at *
  exact h.filter _

/-- Every operation that `MemWrite` may be keeps the canonical form, whatever `DEST_ACCEPTS` is. -/
theorem Memory.wf_accept {e : Env} (d : DestAccepts) (a : Nat) (b : Byte) (h : Memory.wf e.mem = true) :
    Memory.wf (e.accept d a b) = true := by
  unfold Env.accept
  split
  · exact Memory.wf_write a b h
  · split
    · exact Memory.wf_write a b h
    · exact h
  · exact Memory.wf_forget a h

theorem Memory.wf_reset : Memory.wf State.reset.env.mem = true := by decide

end Sys2Proof.Machine
end

