-- ==== Sys2Proof/Laws/PerInstr.lean ====
section
/-! SUPPORT. A statement about every instruction as syntax, one lemma for each constructor. -/

namespace Sys2Proof.Laws.EncodesInWindow

/-- The host write an instruction encodes to lies at one of the two writable registers of the window (20_memory.md R55): at `CRC`
exactly for the seed write (40_checksum.md R96), else at `CMD` with the row's opcode in the low byte. -/
def Statement (i : Instr) : Prop :=
  match i with
  | .wrCrc v => encode i = (0x04, v)
  | .nop => (encode i).1 = 0x00 ∧ Machine.opField (encode i).2 = 0x00
  | .crcInit => (encode i).1 = 0x00 ∧ Machine.opField (encode i).2 = 0x01
  | .crcByte _ => (encode i).1 = 0x00 ∧ Machine.opField (encode i).2 = 0x02
  | .pulse => (encode i).1 = 0x00 ∧ Machine.opField (encode i).2 = 0x03
  | .readp _ => (encode i).1 = 0x00 ∧ Machine.opField (encode i).2 = 0x04
  | .reads _ => (encode i).1 = 0x00 ∧ Machine.opField (encode i).2 = 0x05
  | .step => (encode i).1 = 0x00 ∧ Machine.opField (encode i).2 = 0x06
  | .clrerr => (encode i).1 = 0x00 ∧ Machine.opField (encode i).2 = 0x07
  | .reserved op _ => (encode i).1 = 0x00 ∧ Machine.opField (encode i).2 = op

theorem nop : Statement .nop := ⟨rfl, by decide⟩

theorem crcInit : Statement .crcInit := ⟨rfl, by decide⟩

theorem crcByte (b : Byte) : Statement (.crcByte b) := ⟨rfl, Machine.opField_commandWord _ _⟩

theorem pulse : Statement .pulse := ⟨rfl, by decide⟩

theorem readp (n : BitVec 5) : Statement (.readp n) := ⟨rfl, Machine.opField_commandWord _ _⟩

theorem reads (n : BitVec 5) : Statement (.reads n) := ⟨rfl, Machine.opField_commandWord _ _⟩

theorem step : Statement .step := ⟨rfl, by decide⟩

theorem clrerr : Statement .clrerr := ⟨rfl, by decide⟩

theorem wrCrc (v : Word) : Statement (.wrCrc v) := rfl

theorem reserved (op arg : Byte) : Statement (.reserved op arg) := ⟨rfl, Machine.opField_commandWord _ _⟩

end Sys2Proof.Laws.EncodesInWindow
end

