-- ==== Sys2Proof/Laws/Sequencer.lean ====
section
/-! SUPPORT. What the loops of a block attempt and the attempt up to its verdict can do. -/

namespace Sys2Proof.Machine

/-- The answers to strobed reads begin with the bits the environment had chosen. -/
theorem LineAnswers.chosen_prefix {e : Env} {ep : Endpoint} {bits : List Bool} (h : LineAnswers e ep bits) :
    (e.chosen ep).take bits.length <+: bits := by
  rw [List.prefix_iff_eq_take]
  refine List.ext_getElem? fun i => ?_
  by_cases hi : i < ((e.chosen ep).take bits.length).length
  · have hi' : i < bits.length ∧ i < (e.chosen ep).length := by simpa using hi
    rw [List.getElem?_take_of_lt hi'.1, List.getElem?_take_of_lt hi, h i hi'.1, List.getElem?_eq_getElem hi'.2]
    rfl
  · rw [List.getElem?_eq_none (by omega), List.getElem?_eq_none (by simp at hi ⊢; omega)]

/-- Reads of the secondary endpoint, as an update of the environment. -/
theorem Env.afterReads_secondary (e : Env) (bits : List Bool) :
    e.afterReads .secondary bits =
      { e with trace := e.trace ++ bits.map .rdS, nextS := e.nextS.drop bits.length } := rfl

/-- Reads of the primary endpoint, as an update of the environment. -/
theorem Env.afterReads_primary (e : Env) (bits : List Bool) :
    e.afterReads .primary bits =
      { e with trace := e.trace ++ bits.map .rdP, nextP := e.nextP.drop bits.length } := rfl

/-- What the destination memory holds after byte writes from address `a` upwards, with the flip-flop at `latch`. -/
def acceptAll (d : DestAccepts) (latch : Bool) : Memory → Nat → List Byte → Memory
  | m, _, [] => m
  | m, a, b :: rest => acceptAll d latch (Env.accept { Env.reset with mem := m, latch := latch } d a b) (a + 1) rest

/-- A byte write: one event, and the memory by `DEST_ACCEPTS` and the flip-flop (20_memory.md R58). -/
theorem Env.memWrite_eq (e : Env) (d : DestAccepts) (a : Nat) (b : Byte) :
    e.memWrite d a b =
      { e with
        trace := e.trace ++ [.memW a b]
        mem := Env.accept { Env.reset with mem := e.mem, latch := e.latch } d a b } := rfl

/-- A byte write leaves every other address as it was. -/
theorem Env.accept_read_other (e : Env) (d : DestAccepts) {a a' : Nat} (b : Byte) (h : a' ≠ a) :
    Memory.read (e.accept d a b) a' = Memory.read e.mem a' := by
  unfold Env.accept
  split
  · exact Memory.read_write_other _ b h
  · split
    · exact Memory.read_write_other _ b h
    · rfl
  · exact Memory.read_forget_other _ h

/-- Every entry after a byte write is the written one or an old one. -/
theorem Env.mem_accept {e : Env} {d : DestAccepts} {a : Nat} {b : Byte} {p : Host.Cell} (h : p ∈ e.accept d a b) :
    p = (a, b) ∨ p ∈ e.mem := by
  unfold Env.accept at h
  split at h
  · exact Memory.mem_write h
  · split at h
    · exact Memory.mem_write h
    · exact .inr h
  · exact .inr (List.mem_filter.1 h).1

theorem acceptAll_read_other (d : DestAccepts) (latch : Bool) (bytes : List Byte) :
    ∀ (m : Memory) (a a' : Nat), (a' < a ∨ a + bytes.length ≤ a') →
      Memory.read (acceptAll d latch m a bytes) a' = Memory.read m a' := by
  induction bytes with
  | nil => intro m a a' _; rfl
  | cons b bytes ih =>
    intro m a a' h
    simp only [List.length_cons] at h
    rw [acceptAll, ih _ _ _ (by omega), Env.accept_read_other _ _ _ (by omega)]

theorem acceptAll_wf (d : DestAccepts) (latch : Bool) (bytes : List Byte) :
    ∀ (m : Memory) (a : Nat), Memory.wf m = true → Memory.wf (acceptAll d latch m a bytes) = true := by
  induction bytes with
  | nil => intro m a h; exact h
  | cons b bytes ih => intro m a h; exact ih _ _ (Memory.wf_accept d a b h)

theorem mem_acceptAll (d : DestAccepts) (latch : Bool) (bytes : List Byte) :
    ∀ (m : Memory) (a : Nat) (p : Host.Cell), p ∈ acceptAll d latch m a bytes →
      p ∈ m ∨ (a ≤ p.1 ∧ p.1 < a + bytes.length) := by
  induction bytes with
  | nil => intro m a p h; exact .inl h
  | cons b bytes ih =>
    intro m a p h
    rcases ih _ _ _ h with h | h
    · rcases Env.mem_accept h with rfl | h
      · exact .inr (by simp)
      · exact .inl h
    · exact .inr (by simp only [List.length_cons]; omega)

/-- With a destination that stores every write, the payload events are what the memory holds. -/
theorem acceptAll_storeAlways (latch : Bool) (payload : List (List Bool)) :
    ∀ (m : Memory) (a : Nat),
      acceptAll .storeAlways latch m a (payload.map byteOfBits) = storeEvents m (payloadEvents a payload) := by
  have skip : ∀ (bits : List Bool) (m : Memory) (rest : List Event),
      storeEvents m (bits.map .rdS ++ rest) = storeEvents m rest := by
    intro bits
    induction bits with
    | nil => intro m rest; rfl
    | cons b bits ih => intro m rest; simpa [storeEvents] using ih m rest
  induction payload with
  | nil => intro m a; rfl
  | cons bits payload ih =>
    intro m a
    simp only [List.map_cons, acceptAll, payloadEvents, skip, storeEvents, Env.accept, ih]

/-- The payload loop (42_sequencer.md R136): bytes received in order, each written at its address. -/
theorem receivePayload_spec (c : Config) (k : Nat) : ∀ (cur : Cursor) (e : Env), cur.toNat + k ≤ 2 ^ 32 →
    ∃ payload : List (List Bool), payload.length = k ∧ (∀ bits ∈ payload, bits.length = c.lit.payloadReadBits) ∧
      e.nextS.take payload.flatten.length <+: payload.flatten ∧
      receivePayload c k cur e =
        (payload.map byteOfBits, cur + BitVec.ofNat 32 k,
          { e with
            trace := e.trace ++ payloadEvents cur.toNat payload
            mem := acceptAll c.plat.destAccepts e.latch e.mem cur.toNat (payload.map byteOfBits)
            nextS := e.nextS.drop payload.flatten.length }) := by
  induction k with
  | zero => intro cur e _; exact ⟨[], rfl, by simp, by simp, by simp [receivePayload, payloadEvents, acceptAll]⟩
  | succ k ih =>
    intro cur e hcur
    obtain ⟨bits, hlen, hans, hread⟩ := Env.readBits_spec e .secondary c.lit.payloadReadBits
    have hpre := hans.chosen_prefix
    rw [receivePayload]
    simp only [hread]
    cases k with
    | zero =>
      refine ⟨[bits], rfl, by simpa using hlen, by simpa [Env.chosen] using hpre, ?_⟩
      simp [receivePayload, payloadEvents, acceptAll, byteOfBits, Env.memWrite_eq, Env.afterReads_secondary]
    | succ k =>
      have hnext : (cur + 1).toNat = cur.toNat + 1 := by
        rw [BitVec.toNat_add]; exact Nat.mod_eq_of_lt (by simp; omega)
      obtain ⟨payload, h1, h2, h3, h4⟩ := ih (cur + 1)
        ((e.afterReads .secondary bits).memWrite c.plat.destAccepts cur.toNat ((wordOfBits bits).setWidth 8))
        (by rw [hnext]; omega)
      refine ⟨bits :: payload, by simp [h1], ?_, ?_, ?_⟩
      · intro b hb
        rcases List.mem_cons.1 hb with rfl | hb
        · exact hlen
        · exact h2 b hb
      · simp only [List.flatten_cons, List.length_append]
        rw [List.take_add]
        have hp : e.nextS.take bits.length <+: bits := by simpa [Env.chosen] using hpre
        have h3' : (e.nextS.drop bits.length).take payload.flatten.length <+: payload.flatten := h3
        by_cases hl : bits.length ≤ e.nextS.length
        · have : e.nextS.take bits.length = bits := hp.eq_of_length (by simpa using hl)
          rw [this]
          exact List.prefix_append_right_inj bits |>.2 h3'
        · rw [List.drop_eq_nil_of_le (by omega)]
          simpa using hp.trans (List.prefix_append _ _)
      · rw [h4]
        simp only [hnext]
        refine Prod.ext (by simp [byteOfBits]) (Prod.ext ?_ ?_)
        · simp only [BitVec.add_assoc]
          congr 1
          rw [show (1 : Cursor) = BitVec.ofNat 32 1 from rfl, ← BitVec.ofNat_add, Nat.add_comm 1]
        · simp [payloadEvents, acceptAll, byteOfBits, Env.memWrite_eq, Env.afterReads_secondary]

/-- The read-back loop (42_sequencer.md R138): one read of each address in ascending order; a storing memory answers the byte it
is known to hold. -/
theorem readBack_spec (c : Config) (k : Nat) : ∀ (a : Cursor) (e : Env), a.toNat + k ≤ 2 ^ 32 →
    ∃ (answers : List Byte) (nextM : List Byte), answers.length = k ∧
      readBack c k a e =
        (answers, { e with trace := e.trace ++ readBackEvents a.toNat answers, nextM := nextM }) ∧
      (c.plat.destAccepts ≠ .any → ∀ j b, j < k → e.mem.read (a.toNat + j) = some b → answers[j]? = some b) := by
  induction k with
  | zero => intro a e _; exact ⟨[], e.nextM, rfl, by simp [readBack, readBackEvents], by simp⟩
  | succ k ih =>
    intro a e ha
    obtain ⟨v, n, hread, hknown⟩ := Env.memRead_spec e c.plat.destAccepts a.toNat
    rw [readBack]
    simp only [hread]
    cases k with
    | zero =>
      refine ⟨[v], n, rfl, by simp [readBack, readBackEvents], fun hd j b hj hb => ?_⟩
      obtain rfl : j = 0 := by omega
      simpa using hknown hd b hb
    | succ k =>
      have hnext : (a + 1).toNat = a.toNat + 1 := by
        rw [BitVec.toNat_add]; exact Nat.mod_eq_of_lt (by simp; omega)
      obtain ⟨answers, nextM, h1, h2, h3⟩ := ih (a + 1)
        { e with trace := e.trace ++ [.memR a.toNat v], nextM := n } (by rw [hnext]; omega)
      refine ⟨v :: answers, nextM, by simp [h1], ?_, fun hd j b hj hb => ?_⟩
      · simp only [h2]
        simp only [readBackEvents, hnext, List.append_assoc, List.cons_append, List.nil_append]
      · cases j with
        | zero => simpa using hknown hd b hb
        | succ j =>
          have := h3 hd j b (by omega) (by rw [hnext, Nat.add_assoc, Nat.add_comm 1]; exact hb)
          simpa using this

/-- The 32-bit cursor holds a block's destination address exactly. -/
theorem blockStart_toNat (c : Config) {i : Nat} (h : i < c.lit.nBlocks) : (blockStart c i).toNat = address c i := by
  have h1 := address_end c h
  have h2 := destination_end c
  have h3 := c.sound.1
  rw [blockStart, BitVec.toNat_ofNat]
  exact Nat.mod_eq_of_lt (by omega)

/-- The poll and start phases (42_sequencer.md R132, R133, R141): the poll answers, and on a start the assertions. -/
theorem pollAndStart_spec (s : State) :
    ∃ (poll : List Bool), poll.length = s.cfg.lit.pollBits ∧
      LineAnswers (if s.cfg.primaryPollLatch then s.env.pulse else s.env) .primary poll ∧
      ∀ d : Delivery, d.poll = poll →
        (¬d.Starts s → pollAndStart s = { s with
          regs := pollRegs s.regs d
          env := { s.env with
            trace := s.env.trace ++ pollEvents s.cfg d
            stbP := if s.cfg.primaryPollLatch then .low else s.env.stbP
            nextP := s.env.nextP.drop s.cfg.lit.pollBits } }) ∧
        (d.Starts s → ∃ latch nextL, pollAndStart s = { s with
          regs := startRegs (pollRegs s.regs d)
          env := { s.env with
            trace := s.env.trace ++ pollEvents s.cfg d ++ List.replicate s.cfg.lit.weAssertCount .weSet
            stbP := if s.cfg.primaryPollLatch then .low else s.env.stbP
            nextP := s.env.nextP.drop s.cfg.lit.pollBits
            latch := latch
            nextL := nextL } }) := by
  obtain ⟨poll, hlen, hans, hread⟩ :=
    Env.readBits_spec (if s.cfg.primaryPollLatch then s.env.pulse else s.env) .primary s.cfg.lit.pollBits
  refine ⟨poll, hlen, hans, ?_⟩
  rintro d rfl
  have hpoll : pollPhase (clearResult s) = { s with
      regs := pollRegs s.regs d
      env := { s.env with
        trace := s.env.trace ++ pollEvents s.cfg d
        stbP := if s.cfg.primaryPollLatch then .low else s.env.stbP
        nextP := s.env.nextP.drop s.cfg.lit.pollBits } } := by
    have hline : pollLine s.cfg s.env = (wordOfBits d.poll,
        (if s.cfg.primaryPollLatch then s.env.pulse else s.env).afterReads .primary d.poll) := hread
    have hphase : pollPhase (clearResult s) =
        ((clearResult s).withRegs { (clearResult s).regs with poll := (pollLine s.cfg s.env).1 }).withEnv
          (pollLine s.cfg s.env).2 := rfl
    rw [hphase, hline]
    simp only [Env.afterReads_primary, pollRegs, pollEvents, hlen, clearResult, State.withRegs, State.withEnv]
    split <;> simp [Env.pulse_eq]
  unfold pollAndStart
  rw [hpoll, startPhase]
  constructor
  · intro hs
    rw [if_neg (by simpa [pollRegs] using hs)]
  · intro hs
    rw [if_pos (by simpa [pollRegs] using hs)]
    obtain ⟨latch, nextL, hw⟩ := Env.weSetTimes_spec s.cfg.lit.weAssertCount
      { s.env with
        trace := s.env.trace ++ pollEvents s.cfg d
        stbP := if s.cfg.primaryPollLatch then .low else s.env.stbP
        nextP := s.env.nextP.drop s.cfg.lit.pollBits }
    exact ⟨latch, nextL, by simp [State.withRegs, State.withEnv, hw, startRegs]⟩

/-- A block attempt up to its verdict (42_sequencer.md R134 to R138). -/
theorem receiveBlock_spec (s : State) (h : s.regs.index.toNat < s.cfg.lit.nBlocks) :
    ∃ (payload : List (List Bool)) (sum : List Bool) (answers nextM : List Byte),
      ∀ d : Delivery, d.payload = payload → d.sum = sum → d.answers = answers → d.poll.length = s.cfg.lit.pollBits →
        d.Sized s.cfg ∧
        s.env.nextS.take (d.payload.flatten ++ d.sum).length <+: d.payload.flatten ++ d.sum ∧
        (s.cfg.plat.destAccepts ≠ .any → s.cfg.crcSource = .readback → ∀ j b, j < s.cfg.lit.blockBytes →
          Memory.read (acceptAll s.cfg.plat.destAccepts s.env.latch s.env.mem
            (address s.cfg s.regs.index.toNat) d.bytes) (address s.cfg s.regs.index.toNat + j) = some b →
          d.answers[j]? = some b) ∧
        receiveBlock s = { s with
          regs := attemptRegs s.cfg s.regs.index.toNat d s.regs
          env := { s.env with
            trace := s.env.trace ++ attemptEvents s.cfg s.regs.index.toNat d
            stbP := .low
            mem := acceptAll s.cfg.plat.destAccepts s.env.latch s.env.mem (address s.cfg s.regs.index.toNat) d.bytes
            nextS := s.env.nextS.drop (d.payload.flatten ++ d.sum).length
            nextM := nextM } } := by
  have hstart := blockStart_toNat s.cfg h
  have hfit : (blockStart s.cfg s.regs.index.toNat).toNat + s.cfg.lit.blockBytes ≤ 2 ^ 32 := by
    rw [hstart]; exact le_trans (address_end s.cfg h) (destination_end s.cfg)
  obtain ⟨payload, p1, p2, p3, p4⟩ := receivePayload_spec s.cfg s.cfg.lit.blockBytes
    (blockStart s.cfg s.regs.index.toNat) s.env.pulse hfit
  obtain ⟨sum, q1, q2, q3⟩ := Env.readBits_spec (receivePayload s.cfg s.cfg.lit.blockBytes
    (blockStart s.cfg s.regs.index.toNat) s.env.pulse).2.2 .secondary s.cfg.lit.checksumReadBits
  have q4 := q2.chosen_prefix
  have hcursor : blockStart s.cfg s.regs.index.toNat + BitVec.ofNat 32 s.cfg.lit.blockBytes =
      BitVec.ofNat 32 (address s.cfg s.regs.index.toNat + s.cfg.lit.blockBytes) := by
    rw [blockStart, BitVec.ofNat_add]
  have hprefix : s.env.nextS.take (payload.flatten ++ sum).length <+: payload.flatten ++ sum := by
    rw [List.length_append, List.take_add]
    have hp : s.env.nextS.take payload.flatten.length <+: payload.flatten := p3
    have hq : (s.env.nextS.drop payload.flatten.length).take sum.length <+: sum := by
      rw [p4] at q4; exact q4
    by_cases hl : payload.flatten.length ≤ s.env.nextS.length
    · rw [hp.eq_of_length (by rw [List.length_take]; omega)]
      exact List.prefix_append_right_inj _ |>.2 hq
    · rw [List.drop_eq_nil_of_le (by omega)]
      simpa using hp.trans (List.prefix_append _ _)
  unfold receiveBlock localBytes
  cases hsrc : s.cfg.crcSource with
  | readback =>
    obtain ⟨answers, nextM, r1, r2, r3⟩ := readBack_spec s.cfg s.cfg.lit.blockBytes
      (blockStart s.cfg s.regs.index.toNat)
      ((receivePayload s.cfg s.cfg.lit.blockBytes (blockStart s.cfg s.regs.index.toNat) s.env.pulse).2.2.afterReads
        .secondary sum) hfit
    refine ⟨payload, sum, answers, nextM, ?_⟩
    rintro d rfl rfl rfl hpoll
    refine ⟨⟨hpoll, p1, p2, q1, fun _ => r1, by simp [hsrc]⟩, hprefix, ?_, ?_⟩
    · intro hany _ j b hj hb
      refine r3 hany j b hj ?_
      rw [p4, Env.afterReads_secondary]
      rw [hstart]
      exact hb
    · simp only [q3, r2]
      rw [p4]
      simp [Env.afterReads_secondary, State.withRegs, State.withEnv, attemptRegs, attemptEvents, Delivery.localSum,
        Delivery.localBytes, hsrc, hcursor, hstart, Delivery.bytes, Env.pulse_eq]
      rfl
  | received =>
    refine ⟨payload, sum, [], s.env.nextM, ?_⟩
    rintro d rfl rfl hans hpoll
    refine ⟨⟨hpoll, p1, p2, q1, by simp [hsrc], fun _ => hans⟩, hprefix, by simp, ?_⟩
    simp only [q3]
    rw [p4]
    simp [Env.afterReads_secondary, State.withRegs, State.withEnv, attemptRegs, attemptEvents, Delivery.localSum,
      Delivery.localBytes, hsrc, hcursor, hstart, Delivery.bytes, Env.pulse_eq, hans, readBackEvents]
    rfl

/-- The verdict (42_sequencer.md R139, R140): a retry with one strobe, an accept, or the accept that completes the transfer. -/
theorem judgeBlock_cases (s : State) :
    (s.regs.lcrc ≠ s.regs.rxcrc ∧
      judgeBlock s = { s with
        regs := retryRegs s.regs
        env := { s.env with stbP := .low, trace := s.env.trace ++ [.pulse] } }) ∨
    (s.regs.lcrc = s.regs.rxcrc ∧ s.regs.index.toNat + 1 ≠ s.cfg.lit.nBlocks ∧
      judgeBlock s = { s with regs := acceptRegs s.regs.index.toNat s.regs }) ∨
    (s.regs.lcrc = s.regs.rxcrc ∧ s.regs.index.toNat + 1 = s.cfg.lit.nBlocks ∧
      ∃ latch nextL, judgeBlock s = { s with
        regs := completeRegs s.regs
        env := { s.env with trace := s.env.trace ++ [.weClr], latch := latch, nextL := nextL } }) := by
  unfold judgeBlock
  by_cases h : s.regs.lcrc = s.regs.rxcrc
  · refine .inr ?_
    rw [if_neg (not_not_intro h)]
    by_cases hn : s.regs.index.toNat + 1 = s.cfg.lit.nBlocks
    · obtain ⟨l, n, hw⟩ := Env.weClr_spec s.env
      exact .inr ⟨h, hn, l, n, by simp [acceptBlock, hn, completeTransfer, State.withRegs, State.withEnv, hw, completeRegs]⟩
    · exact .inl ⟨h, hn, by simp [acceptBlock, hn, State.withRegs, acceptRegs]⟩
  · exact .inl ⟨h, by simp [h, retryBlock, State.withRegs, State.withEnv, retryRegs, Env.pulse_eq]⟩

end Sys2Proof.Machine
end

