-- ==== Sys2Proof/Laws/Step.lean ====
section
/-! SUPPORT. What one step of the machine can be: each kind of host input, and what the step then is. -/

namespace Sys2Proof.Machine

theorem step_head {s : State} {i : HostInput} {rest : List HostInput} (h : s.host = i :: rest) :
    step s = takeInput i (s.withHost rest) := by
  simp [step, takeTurn, h]

/-- A host write runs the decoded instruction, or records the command error of the refusal (20_memory.md R55). -/
theorem step_write {s : State} {off : Offset} {width : Nat} {v : Word} {rest : List HostInput}
    (h : s.host = .access (.write off width v) :: rest) :
    step s = if accessAccepted off width then writeWindow off v (s.withHost rest)
      else .next (raiseCmdError .badAccess (s.withHost rest)) := by
  rw [step_head h]
  rfl

theorem Offset.even_iff : ∀ off : Offset, off.getLsbD 0 = false ↔ off.toNat % 2 = 0 := by decide

theorem accessAccepted_iff (off : Offset) (width : Nat) :
    accessAccepted off width = true ↔ width = 16 ∧ off.toNat % 2 = 0 ∧ off.toNat ≤ 0x16 := by
  simp only [accessAccepted, Bool.and_eq_true, Bool.not_eq_true', beq_iff_eq, decide_eq_true_eq, Offset.even_iff]
  tauto

/-- What a next state of the machine comes from: no input, a device reset, a host read, a recorded command error, or an
instruction. -/
theorem step_next_cases {s t : State} (h : step s = .next t) :
    (s.host = [] ∧ t = s) ∨
    (∃ i rest, s.host = i :: rest ∧ i.isReset = true ∧ t = deviceReset (s.withHost rest)) ∨
    (∃ off width rest, s.host = .access (.read off width) :: rest ∧ t = readWindow off width (s.withHost rest)) ∨
    (∃ off width v rest c, s.host = .access (.write off width v) :: rest ∧ t = raiseCmdError c (s.withHost rest)) ∨
    (∃ off v rest i, s.host = .access (.write off 16 v) :: rest ∧ decodeWrite off v = .ok i ∧
      exec i (s.withHost rest) = .next t) := by
  cases hs : s.host with
  | nil =>
    refine .inl ⟨rfl, ?_⟩
    simp only [step, takeTurn, hs] at h
    injection h with h
    exact h.symm
  | cons i rest =>
    refine .inr ?_
    cases i with
    | reset => rw [step_head hs] at h; injection h with h; exact .inl ⟨_, rest, rfl, rfl, h.symm⟩
    | cutShort a => rw [step_head hs] at h; injection h with h; exact .inl ⟨_, rest, rfl, rfl, h.symm⟩
    | access a =>
      refine .inr ?_
      cases a with
      | read off width => rw [step_head hs] at h; injection h with h; exact .inl ⟨off, width, rest, rfl, h.symm⟩
      | write off width v =>
        refine .inr ?_
        rw [step_write hs] at h
        by_cases ha : accessAccepted off width = true
        · rw [if_pos ha] at h
          obtain ⟨rfl, -, -⟩ := (accessAccepted_iff _ _).1 ha
          unfold writeWindow at h
          cases hd : decodeWrite off v with
          | ok i => rw [hd] at h; exact .inr ⟨off, v, rest, i, rfl, hd, h⟩
          | error r => rw [hd] at h; injection h with h; exact .inl ⟨off, 16, v, rest, _, rfl, h.symm⟩
        · rw [if_neg ha] at h
          injection h with h
          exact .inl ⟨off, width, v, rest, _, rfl, h.symm⟩

end Sys2Proof.Machine
end

