-- ==== Sys2Proof/Tests/Slice0.lean ====
section
/-! SUPPORT. Tests. The expected values are those of 95_test_vectors.md (named in each docstring) or of the encoding tables of
30_encoding.md. The theorems named `witness_…` show states and operands that meet the hypotheses of the statement they are named
after, one for each clause. -/

namespace Sys2Proof.Tests

open Sys2Proof.Machine

/-! ## Helpers -/

/-- The line bits that give a value, bit 0 first. -/
def lineBits (n v : Nat) : List Bool := (List.range n).map v.testBit

/-- The secondary line bits of one block: its bytes and its checksum. -/
def blockBits (bytes : List Nat) (sum : Nat) : List Bool := bytes.flatMap (lineBits 8) ++ lineBits 16 sum

/-- The reset state of the example configuration of R9. -/
def start : State := State.resetWith Config.example9

/-- A state about to poll `poll` and to receive one block of equal bytes. -/
def ready (s : State) (poll byte sum : Nat) : State :=
  { s with env := { s.env with nextP := lineBits 16 poll, nextS := blockBits (List.replicate s.cfg.lit.blockBytes byte) sum } }

/-- The state with a transfer under way at block `i`. -/
def inTransfer (s : State) (i : Word) : State := { s with regs := { s.regs with mode := .transferring, we := true, index := i } }

/-- The state with a write of `w` to `CMD` pending. -/
def pend (w : Word) (s : State) : State := { s with host := [.access (.write 0x00 16 w)] }

/-- The next state, or the state itself where there is none. -/
def after (f : State → Host.Outcome State Fault Refusal) (s : State) : State :=
  match f s with
  | .next t => t
  | .fault _ => s
  | .refused _ => s

/-- An input read from the window, at a width. -/
def pendRead (off : Offset) (width : Nat) (s : State) : State := { s with host := [.access (.read off width)] }

/-- An input written to the window, at a width. -/
def pendWrite (off : Offset) (width : Nat) (v : Word) (s : State) : State := { s with host := [.access (.write off width v)] }

/-- Two blocks of one byte: a configuration in which a transfer takes two `step` commands. -/
def twoBlocks : Config :=
  { lit := { blockBytes := 1, nBlocks := 2, destSize := 2 }
    plat := { Platform.example9 with regBase := 0x40 }
    sound := by decide +kernel
    fits := by decide }

/-- The reset state of that configuration. -/
def tiny : State := State.resetWith twoBlocks

/-- The same blocks behind a destination of the given kind, block 0 under way, with the flip-flop, its draws, the memory answers
and one known byte as given. -/
def behind (d : DestAccepts) (latch : Bool) (nextM : List Byte) (mem : Memory) : State :=
  let s := State.resetWith { twoBlocks with plat := { twoBlocks.plat with destAccepts := d }, fits := twoBlocks.fits }
  inTransfer { s with env := { s.env with latch := latch, nextM := nextM, mem := mem } } 0

/-- One block of one byte: a start and its completion in one `step` command. -/
def oneBlock : Config :=
  { lit := { blockBytes := 1, nBlocks := 1, destSize := 1 }, plat := Platform.example9, sound := by decide +kernel, fits := by decide }

/-- The state with the draws of the flip-flop chosen. -/
def chooseLatch (nextL : List Bool) (s : State) : State := { s with env := { s.env with nextL := nextL } }

/-- Constants with another polynomial. -/
def crc16Mcrf4xx : Literals := { crcInit := 0xFFFF, crcPoly := 0x8408 }

/-- Constants with another width. -/
def crc8Rohc : Literals := { crcWidth := 8, crcInit := 0xFF, crcPoly := 0xE0 }

theorem exec_step {s : State} (h : s.regs.index.toNat < s.cfg.lit.nBlocks) : exec .step s = .next (transferStep s) := if_pos h

/-! ## Well-formedness: an ill-formed term for each check (R71, R74) -/

theorem test_wf_refuses_readp_zero : (Instr.readp 0).wellFormed = false := by decide
theorem test_wf_refuses_readp_seventeen : (Instr.readp 17).wellFormed = false := by decide
theorem test_wf_refuses_reads_zero : (Instr.reads 0).wellFormed = false := by decide
theorem test_wf_refuses_reads_thirty_one : (Instr.reads 31).wellFormed = false := by decide
theorem test_wf_refuses_reserved_seven : (Instr.reserved 7 0).wellFormed = false := by decide
theorem test_wf_accepts_bounds :
    (Instr.readp 1).wellFormed = true ∧ (Instr.reads 16).wellFormed = true ∧ (Instr.reserved 8 0xFF).wellFormed = true := by decide

/-! ## Decoding: a word of every row, written out from R72 (`ARG` in bits 15:8, `OP` in bits 7:0) -/

theorem test_decode_nop : decodeTableWord 16 0b0000000000000000 = some .nop := by decide
theorem test_decode_crc_init : decodeTableWord 16 0b0000000000000001 = some .crcInit := by decide
theorem test_decode_crc_byte : decodeTableWord 16 0b1010010100000010 = some (.crcByte 0xA5) := by decide
theorem test_decode_pulse : decodeTableWord 16 0b0000000000000011 = some .pulse := by decide
theorem test_decode_readp : decodeTableWord 16 0b0001000000000100 = some (.readp 16) := by decide
theorem test_decode_reads : decodeTableWord 16 0b0000100000000101 = some (.reads 8) := by decide
theorem test_decode_step : decodeTableWord 16 0b0000000000000110 = some .step := by decide
theorem test_decode_clrerr : decodeTableWord 16 0b0000000000000111 = some .clrerr := by decide
theorem test_decode_reserved : decodeTableWord 16 0b0000000100001000 = some (.reserved 0x08 0x01) := by decide
theorem test_decode_wr_crc : decodeWrite 0x04 0xBEEF = .ok (.wrCrc 0xBEEF) ∧
    decodeTableWord 21 0b001001011111011101111 = some (.wrCrc 0xBEEF) := by decide
theorem test_decode_rejects_by_name : decodeWrite 0x01 0x0006 = .error .oddOffset ∧
    decodeWrite 0x18 0x0000 = .error .unmappedOffset ∧ decodeWrite 0x0A 0x0001 = .error .readOnly ∧
    decodeWrite 0x00 0x0100 = .error .badArg ∧ decodeWrite 0x00 0x2104 = .error .badArg := by decide

/-! ## One step each: the vectors of the spec -/

/-- The word runs as the first instruction after reset. -/
theorem test_fetched_word_runs : (after step (State.reset.withFetchWord 16 0x0002)).regs.crc = 0x5840 := by decide +kernel
/-- V-CTL-2. -/
theorem test_nop_with_arg : (after step (pend 0x0100 start)).regs.statusWord = 0x00A0 := by decide
/-- V-CRC-25. -/
theorem test_crc_init : (after (exec .crcInit) (start.withCrc 0x1234)).regs.crc = 0xC0DE := by decide
/-- V-CRC-30. -/
theorem test_crc_init_with_arg : (after step (pend 0x0101 (start.withCrc 0x1234))).regs.crc = 0x1234 := by decide
/-- V-CRC-26. -/
theorem test_crc_byte : (after step (pend 0xFF02 start)).regs.crc = 0x1800 := by decide
/-- V-CRC-21. -/
theorem test_crc_byte_zero : (after (exec (.crcByte 0x00)) (start.withCrc 0x1234)).regs.crc = 0xD713 := by decide
/-- V-CRC-27. -/
theorem test_wr_crc : (after step (pendWrite 0x04 16 0xBEEF start)).regs.crc = 0xBEEF := by decide
/-- V-CRC-8. -/
theorem test_checksum_zeros : checksum Literals.document (List.replicate 64 0x00) = 0xC876 := by decide +kernel
/-- V-CRC-12. -/
theorem test_checksum_digits :
    checksum Literals.document [0x31, 0x32, 0x33, 0x34, 0x35, 0x36, 0x37, 0x38, 0x39] = 0x4EE0 := by decide +kernel
/-- Other constants, with the published values of CRC-16/MCRF4XX (polynomial 0x8408, initial value 0xFFFF, check 0x6F91) and of
CRC-8/ROHC (0xE0, 0xFF, check 0xD0), general knowledge outside spec/: the polynomial and the width are read (log 28). -/
theorem test_other_polynomial : tableEntry crc16Mcrf4xx 0x01 = 0x1189 ∧ tableEntry crc8Rohc 0x01 = 0x91 := by decide +kernel
theorem test_other_checksums :
    checksum crc16Mcrf4xx [0x31, 0x32, 0x33, 0x34, 0x35, 0x36, 0x37, 0x38, 0x39] = 0x6F91 ∧
      checksum crc8Rohc [0x31, 0x32, 0x33, 0x34, 0x35, 0x36, 0x37, 0x38, 0x39] = 0xD0 := by decide +kernel
/-- V-LNK-1. -/
theorem test_pulse : (after (exec .pulse) start).env.trace = [.pulse] := by decide
/-- V-ERR-4. -/
theorem test_pulse_busy : (after step (pend 0x0003 (inTransfer start 1))).regs.errcBits = 3 := by decide
/-- V-LNK-2. -/
theorem test_readp : (after (exec (.readp 16)) { start with env := { start.env with nextP :=
    [false, true, false, true, true, false, true, false, true, false, true, false, false, true, false, true] } }).regs.data =
      0xA55A := by decide
/-- V-ERR-6. -/
theorem test_readp_zero_busy : (after step (pend 0x0004 (inTransfer start 1))).regs.errcBits = 2 := by decide
/-- V-LNK-3. -/
theorem test_reads : (after (exec (.reads 8)) { start with env := { start.env with nextS :=
    [false, false, true, true, true, true, false, false] } }).regs.data = 0x003C := by decide
/-- V-LNK-4: sixteen reads, the first at bit 0. -/
theorem test_reads_sixteen :
    (after (exec (.reads 16)) { start with env := { start.env with nextS := lineBits 16 0xC876 } }).env.trace.length = 16 := by decide
/-- V-STP-2. -/
theorem test_step_start : (after (exec .step) (ready start 0x1000 0x00 0xC876)).regs.statusWord = 0x0017 := by decide +kernel
/-- The event layout after V-STP-10, with one byte for a block: the poll, fifteen assertions, the continue strobe, and at the end
the read-back. -/
theorem test_step_events : (after (exec .step) (ready tiny 0x1000 0x00 0x5840)).env.trace =
    .pulse :: (lineBits 16 0x1000).map .rdP ++ List.replicate 15 .weSet ++ .pulse :: (lineBits 8 0x00).map .rdS ++
      .memW 0x100000 0x00 :: (lineBits 16 0x5840).map .rdS ++ [.memR 0x100000 0x00] := by decide +kernel
/-- V-CTL-3, on the word. -/
theorem test_clrerr : (after step (pend 0x0007 (start.withErrc (some .reservedOp)))).regs.statusWord = 0x0000 := by decide
/-- V-CTL-4. -/
theorem test_clrerr_with_arg :
    (after step (pend 0x0107 (start.withErrc (some .reservedOp)))).regs.statusWord = 0x0060 := by decide
/-- V-ERR-3. -/
theorem test_reserved : (after step (pend 0x0108 start)).regs.statusWord = 0x0060 := by decide
/-- V-ACC-2 and V-ACC-5. -/
theorem test_access_refused : (after step (pendRead 0x18 16 start)).regs.statusWord = 0x0120 ∧
    (after step (pendRead 0x04 8 start)).reply = some 0x0000 := by decide
/-- V-ADR-2 and V-ADR-3. -/
theorem test_address : address Config.example9 1023 = 0x10FFC0 ∧ address Config.example9 1024 = 0x110000 ∧
    address Config.example9 8191 = 0x17FFC0 := by decide

/-! ## Witnesses: states and operands that meet the hypotheses of the statements -/

theorem witness_DecodeOfEncode : (Instr.readp 1).wellFormed = true ∧ (Instr.reads 16).wellFormed = true ∧
    (Instr.crcByte 0xFF).wellFormed = true ∧ (Instr.reserved 8 0).wellFormed = true := by decide

theorem witness_EncodeOfDecode : decodeWrite 0x00 0x1005 = .ok (.reads 16) ∧ decodeWrite 0x04 0 = .ok (.wrCrc 0) := by decide

theorem witness_CommandWordsPartition :
    (CommandPending (pend 0x0008 start) 0x0008 [] ∧ 8 ≤ (opField 0x0008).toNat) ∧
      (CommandPending (pend 0x0107 start) 0x0107 [] ∧ (opField 0x0107).toNat < 8 ∧ ¬ExecutableWord 0x0107) ∧
      (CommandPending (pend 0x1104 start) 0x1104 [] ∧ (opField 0x1104).toNat < 8 ∧ ¬ExecutableWord 0x1104) := by decide

theorem witness_DeviceResetClearsRegisters :
    ({ inTransfer start 3 with host := [.reset] } : State).host = [.reset] ∧ HostInput.reset.isReset = true ∧
      (HostInput.cutShort (.write 0x00 16 0x0006)).isReset = true := by decide

theorem witness_StepRunsDecodedInstruction :
    (pend 0x1004 start).host = [.access (.write 0x00 16 0x1004)] ∧ decodeWrite 0x00 0x1004 = .ok (.readp 16) := by decide

theorem witness_StepWithoutInputIsIdle : State.reset.host = [] := rfl

theorem witness_HostAccessRule :
    (accessAccepted 0x18 16 = false ∧ accessAccepted 0x04 8 = false ∧ accessAccepted 0x15 16 = false) ∧
      (accessAccepted 0x00 16 = true ∧ accessAccepted 0x16 16 = true ∧ accessAccepted 0x04 16 = true) ∧
      (pendRead 0x16 16 start).host = [.access (.read 0x16 16)] ∧
      (pendWrite 0x02 16 1 start).host = [.access (.write 0x02 16 1)] ∧ start.cfg.lit = Literals.document := by decide +kernel

theorem witness_RegisterMap : (0x18 : Nat) ≤ (0x18 : Offset).toNat ∧ (0x18 : Nat) ≤ (0x1F : Offset).toNat := by decide

/-- Every result, no error, and a recorded one. -/
theorem witness_StatusLayout : start.regs.last = .none ∧ start.regs.errc = none ∧
    ({ start.regs with last := .accepted } : Regs).last = .accepted ∧ ({ start.regs with last := .retry } : Regs).last = .retry ∧
    ({ start.regs with last := .complete } : Regs).last = .complete ∧
    (start.withErrc (some .badAccess)).regs.errc = some .badAccess := by decide

theorem witness_WindowDecode : tiny.cfg.plat.regBase = 0x40 ∧ 0x5F = tiny.cfg.plat.regBase + (0x1F : Offset).toNat ∧
    0x3F < tiny.cfg.plat.regBase ∧ tiny.cfg.plat.regBase + 32 ≤ 0x60 := by decide

theorem witness_FirstErrorStands : start.regs.errc = none ∧ (start.withErrc (some .badAccess)).regs.errc ≠ none := by decide

theorem witness_OnlyClrerrAndResetClearErrors :
    (∃ t, step (pend 0x0008 (start.withErrc (some .badArg))) = .next t ∧ t.regs.errc = some .badArg) ∧
      (CommandPending (pend 0x0007 (start.withErrc (some .badArg))) 0x0007 [] ∧
        ∃ t, step (pend 0x0007 (start.withErrc (some .badArg))) = .next t ∧ t.regs.errc = none) ∧
      ∃ t, step { start.withErrc (some .badArg) with host := [.reset] } = .next t ∧ t.regs.errc = none :=
  ⟨⟨_, rfl, rfl⟩, ⟨rfl, _, rfl, rfl⟩, _, rfl, rfl⟩

theorem witness_ErrorPriority :
    (accessAccepted 0x00 8 = false ∧ (pendWrite 0x00 8 0x0008 start).host = [.access (.write 0x00 8 0x0008)]) ∧
      (accessAccepted 0x00 16 = true ∧ 8 ≤ (opField 0xFF08).toNat) ∧
      ((opField 0x0103).toNat < 8 ∧ ArgIllegal (opField 0x0103) (argField 0x0103)) ∧
      ((opField 0x1104).toNat < 8 ∧ ArgIllegal (opField 0x1104) (argField 0x1104)) ∧
      (opField 0x1005 = 0x05 ∧ ¬ArgIllegal (opField 0x1005) (argField 0x1005)) ∧
      (inTransfer start 1).regs.mode = .transferring ∧ (start.withErrc (some .linkBusy)).regs.errc ≠ none := by
  simp only [ArgIllegal]
  decide

theorem witness_ErrorsBlockNothing : ∃ t, exec (.crcByte 0x00) (start.withErrc (some .reservedOp)) = .next t := ⟨_, rfl⟩

theorem witness_ReservedRecordsError1 : start.regs.errc = none ∧ (start.withErrc (some .badArg)).regs.errc ≠ none := by decide

theorem witness_ArgRefused : (0x01 : Byte) ≠ 0 ∧ CommandPending (pend 0x0100 start) (commandWord 0x01 0x00) [] ∧
    CommandPending (pend 0xFF07 start) (commandWord 0xFF 0x07) [] := by decide

theorem witness_ClrerrClearsTheRecord : (∃ t, exec .clrerr start = .next t) ∧ start.regs.errc = none := ⟨⟨_, rfl⟩, rfl⟩

theorem witness_HostWriteSeedsCrc : (pendWrite 0x04 8 0xFF start).host = [.access (.write 0x04 8 0xFF)] ∧ 8 ≠ 16 := by decide

/-- Other polynomials, a table given outright. -/
theorem witness_TableIsGenerated : (Literals.document.Sound ∧ Literals.document.table = none) ∧
    (crc16Mcrf4xx.Sound ∧ crc16Mcrf4xx.table = none) ∧ (crc8Rohc.Sound ∧ crc8Rohc.table = none) ∧
    ({ table := some (List.replicate 256 0x1234) } : Literals).table = some (List.replicate 256 0x1234) := by decide +kernel

/-- The smallest and the largest width, and a value of `CRC` to start from. -/
theorem witness_ChecksumHasCrcWidth : (crc8Rohc.Sound ∧ crc8Rohc.crcWidth = 8) ∧
    (Literals.document.Sound ∧ Literals.document.crcWidth = 16) ∧ ∃ t, exec (.crcByte 0x00) (start.withCrc 0xFFFF) = .next t :=
  ⟨by decide +kernel, by decide +kernel, _, rfl⟩

theorem witness_OneCorruptByteChangesChecksum : (0x00 : Byte) ≠ 0x01 := by decide

theorem witness_PulseEmitsOneTick :
    start.regs.mode = .idle ∧ (inTransfer start 0).regs.mode = .transferring := by decide

theorem witness_counted_reads :
    (1 ≤ (1 : BitVec 5).toNat ∧ (16 : BitVec 5).toNat ≤ 16) ∧
      ¬(1 ≤ (0 : BitVec 5).toNat ∧ (0 : BitVec 5).toNat ≤ 16) ∧ ¬(1 ≤ (17 : BitVec 5).toNat ∧ (17 : BitVec 5).toNat ≤ 16) ∧
      start.regs.mode = .idle ∧ (inTransfer start 0).regs.mode = .transferring := by decide

theorem witness_CountRefused : ¬(1 ≤ (0x21 : Byte).toNat ∧ (0x21 : Byte).toNat ≤ 16) ∧
    CommandPending (pend 0x2104 start) (commandWord 0x21 0x04) [] ∧
    CommandPending (pend 0x0005 start) (commandWord 0x00 0x05) [] := by decide

/-- Every outcome of a `step` command occurs: no attempt, an accept, a retry and a completion, with the small configuration. -/
theorem witness_StepCommandIsOneIteration :
    ((transferStep (ready tiny 0x1001 0x00 0x5840)).regs.last = .none ∧
      (transferStep (ready tiny 0x1000 0x00 0x5840)).regs.last = .accepted ∧
      (transferStep (ready tiny 0x1000 0x00 0x5841)).regs.last = .retry ∧
      (transferStep (ready (inTransfer tiny 1) 0x0000 0x00 0x5840)).regs.last = .complete) ∧
      (ready (inTransfer tiny 1) 0x0000 0x00 0x5840).regs.index.toNat < twoBlocks.lit.nBlocks := by decide +kernel

theorem witness_StepCommandFrame :
    (∃ t, exec .step (ready tiny 0x1001 0x00 0x5840) = .next t ∧ t.regs.last = .none) ∧ tiny.env.stbP = .low :=
  ⟨⟨_, exec_step (by decide), by decide +kernel⟩, rfl⟩

/-- A reset state meets the invariant, and so does one with a transfer under way. -/
theorem inv_start (c : Config) (e : Env) (he : e.stbP = .low) (hm : e.mem = []) (h : List HostInput) :
    ({ State.resetWith c with env := e, host := h } : State).Inv :=
  ⟨by simp [LatchFollowsMode, State.resetWith, Regs.reset], ⟨c.sound.2.1, fun _ => rfl⟩, .inl ⟨rfl, rfl⟩, he,
    by constructor <;> simp [hm, Memory.wf]⟩

theorem witness_StartAssertsLatch : (ready start 0x1000 0x00 0xC876).Inv ∧ start.cfg.lit = Literals.document ∧
    (∃ t, exec .step (ready start 0x1000 0x00 0xC876) = .next t ∧ t.regs.started = true) ∧
    ∃ t, exec .step (ready start 0x1001 0x00 0xC876) = .next t ∧ t.regs.started = false :=
  ⟨inv_start _ _ rfl rfl _, rfl, ⟨_, exec_step (by decide), by decide +kernel⟩, _, exec_step (by decide), by decide +kernel⟩

theorem witness_AssertionsPrecedeWrites :
    ∃ t, exec .step (ready tiny 0x1000 0x00 0x5840) = .next t ∧ t.regs.started = true :=
  ⟨_, exec_step (by decide), by decide +kernel⟩

theorem witness_MismatchRequestsRetry :
    (∃ t, exec .step (ready tiny 0x1000 0x00 0x0000) = .next t ∧ t.regs.last = .retry) ∧ tiny.regs.mode = .idle ∧
      (∃ t, exec .step (ready (inTransfer tiny 1) 0x0000 0x00 0x0000) = .next t ∧ t.regs.last = .retry) ∧
      (inTransfer tiny 1).regs.mode = .transferring :=
  ⟨⟨_, exec_step (by decide), by decide +kernel⟩, rfl, ⟨_, exec_step (by decide), by decide +kernel⟩, rfl⟩

theorem witness_MatchAdvancesOrCompletes :
    (∃ t, exec .step (ready tiny 0x1000 0x00 0x5840) = .next t ∧ t.regs.last ≠ .none ∧ t.regs.lcrc = t.regs.rxcrc) ∧
      tiny.regs.index.toNat + 1 ≠ tiny.cfg.lit.nBlocks ∧
      (∃ t, exec .step (ready (inTransfer tiny 1) 0x0000 0x00 0x5840) = .next t ∧ t.regs.last ≠ .none ∧
        t.regs.lcrc = t.regs.rxcrc) ∧
      (inTransfer tiny 1).regs.index.toNat + 1 = tiny.cfg.lit.nBlocks :=
  ⟨⟨_, exec_step (by decide), by decide +kernel⟩, by decide, ⟨_, exec_step (by decide), by decide +kernel⟩, by decide⟩

/-- A poll of the start pattern itself while Transferring, and of another value in Idle. -/
theorem witness_PollValueInertOutsideStart :
    (∃ t, exec .step (ready (inTransfer tiny 1) 0x1000 0x00 0x5840) = .next t ∧ t.regs.poll = tiny.cfg.plat.startPattern) ∧
      (inTransfer tiny 1).regs.mode = .transferring ∧ tiny.regs.mode = .idle ∧
      ∃ t, exec .step (ready tiny 0x1001 0x00 0x5840) = .next t ∧ t.regs.poll ≠ tiny.cfg.plat.startPattern :=
  ⟨⟨_, exec_step (by decide), by decide +kernel⟩, rfl, rfl, _, exec_step (by decide), by decide +kernel⟩

/-- The six rows of the table of R143, with the document's constants. -/
theorem witness_StepEventTally :
    start.cfg.lit = Literals.document ∧ start.cfg.primaryPollLatch = true ∧ start.cfg.crcSource = .readback ∧
      (transferStep (ready start 0x1001 0x00 0xC876)).regs.last = .none ∧
      (transferStep (ready start 0x1000 0x00 0xC876)).regs.last = .accepted ∧
      (transferStep (ready start 0x1000 0x00 0x1234)).regs.last = .retry ∧
      (transferStep (ready (inTransfer start 1) 0x0000 0x00 0xC876)).regs.last = .accepted ∧
      (transferStep (ready (inTransfer start 1) 0x0000 0xFF 0x0000)).regs.last = .retry ∧
      (transferStep (ready (inTransfer start 8191) 0x0000 0x00 0xC876)).regs.last = .complete := by decide +kernel

/-- A `step` command that writes its block, with the addresses beside the block. -/
theorem witness_StepWritesOnlyItsBlock :
    (∃ t, exec .step (ready (inTransfer tiny 1) 0x0000 0x00 0x5840) = .next t ∧ t.env.mem = [(0x100001, 0x00)]) ∧
      address twoBlocks 1 = 0x100001 ∧ 0x100000 < address twoBlocks 1 ∧
      address twoBlocks 1 + twoBlocks.lit.blockBytes ≤ 0x100002 ∧
      ∃ t, exec .step (ready tiny 0x1001 0x00 0x5840) = .next t ∧ t.regs.last = .none :=
  ⟨⟨_, exec_step (by decide), by decide +kernel⟩, by decide, by decide, by decide, _, exec_step (by decide), by decide +kernel⟩

/-- The last event of an accepted `step` command is the read-back of the byte just stored. -/
theorem witness_StoringMemoryFollowsTrace : tiny.cfg.plat.destAccepts = .storeAlways ∧
    ∃ t, exec .step (ready tiny 0x1000 0x5A 0x63C0) = .next t ∧ ∃ pre, t.env.trace = tiny.env.trace ++ (pre ++ [.memR 0x100000 0x5A]) ∧
      Memory.read (storeEvents tiny.env.mem pre) 0x100000 = some 0x5A :=
  ⟨rfl, _, exec_step (by decide),
    (transferStep (ready tiny 0x1000 0x5A 0x63C0)).env.trace.dropLast, by decide +kernel⟩

/-- An attempt behind each kind of destination: stored while latched, not stored while not, forgotten; the read-back comes last. A
start draws the flip-flop first. -/
theorem witness_MemoryFollowsDestAccepts :
    (∃ t, exec .step (ready (behind .storeIfLatched true [] []) 0x0000 0x5A 0x63C0) = .next t ∧ t.regs.last = .accepted ∧
        t.regs.started = false ∧ t.env.mem = [(0x100000, 0x5A)] ∧ t.env.trace.getLast? = some (.memR 0x100000 0x5A)) ∧
      (∃ t, exec .step (ready (behind .storeIfLatched false [] [(0x100000, 0x11)]) 0x0000 0x5A 0x0000) = .next t ∧
        t.regs.last ≠ .complete ∧ t.env.mem = [(0x100000, 0x11)] ∧ .memR 0x100000 0x11 ∈ t.env.trace) ∧
      (∃ t, exec .step (ready (behind .any true [0x5A] [(0x100000, 0x11), (0x100001, 0x22)]) 0x0000 0x5A 0x63C0) = .next t ∧
        .memW 0x100000 0x5A ∈ t.env.trace ∧ t.env.trace.getLast? = some (.memR 0x100000 0x5A) ∧
        t.env.mem = [(0x100001, 0x22)]) ∧
      ∃ t, exec .step (chooseLatch (List.replicate 14 false ++ [true]) (ready { behind .storeIfLatched false [] [] with
          regs := tiny.regs } 0x1000 0x5A 0x63C0)) = .next t ∧ t.regs.started = true ∧ t.env.latch = true ∧
        t.env.mem = [(0x100000, 0x5A)] :=
  ⟨⟨_, exec_step (by decide), by decide +kernel⟩, ⟨_, exec_step (by decide), by decide +kernel⟩,
    ⟨_, exec_step (by decide), by decide +kernel⟩, _, exec_step (by decide), by decide +kernel⟩

/-- No draw, the draws of a start, the draw of a completion, and both in one command. -/
theorem witness_FlipFlopIsDrawn :
    (∃ t, exec .step (ready tiny 0x1001 0x00 0x5840) = .next t ∧ latchDraws tiny.cfg t.regs = 0) ∧
      (∃ t, exec .step (chooseLatch (List.replicate 14 false ++ [true]) (ready tiny 0x1000 0x00 0x5840)) = .next t ∧
        t.regs.started = true ∧ t.regs.last ≠ .complete ∧ 0 < tiny.cfg.lit.weAssertCount ∧ t.env.latch = true) ∧
      (∃ t, exec .step (chooseLatch [true] (ready (inTransfer tiny 1) 0x0000 0x00 0x5840)) = .next t ∧
        t.regs.last = .complete ∧ t.env.latch = true) ∧
      ∃ t, exec .step (chooseLatch (List.replicate 15 false ++ [true, false])
          (ready (State.resetWith oneBlock) 0x1000 0x00 0x5840)) = .next t ∧
        t.regs.started = true ∧ t.regs.last = .complete ∧ t.env.latch = true ∧ t.env.nextL = [false] :=
  ⟨⟨_, exec_step (by decide), by decide +kernel⟩, ⟨_, exec_step (by decide), by decide +kernel⟩,
    ⟨_, exec_step (by decide), by decide +kernel⟩, _, exec_step (by decide), by decide +kernel⟩

theorem witness_EnvironmentFollowsEvents : (∃ t, exec .step (ready tiny 0x1000 0x00 0x5840) = .next t) ∧
    (∃ t, exec (.readp 16) start = .next t) ∧ ∃ t, exec .crcInit start = .next t :=
  ⟨⟨_, exec_step (by decide)⟩, ⟨_, rfl⟩, _, rfl⟩

theorem witness_ReadbackAgreesWithReceived : tiny.cfg.plat.destAccepts = .storeAlways ∧ tiny.cfg.crcSource = .readback ∧
    ∃ t, exec .step (ready tiny 0x1000 0x00 0x5840) = .next t ∧ t.regs.last = .accepted :=
  ⟨rfl, rfl, _, exec_step (by decide), by decide +kernel⟩

theorem witness_StepIgnoresSeed :
    (∃ t, exec .step (ready tiny 0x1000 0x00 0x5840) = .next t ∧ t.regs.last ≠ .none) ∧
      ∃ t, exec .step (ready tiny 0x1001 0x00 0x5840) = .next t ∧ t.regs.last = .none :=
  ⟨⟨_, exec_step (by decide), by decide +kernel⟩, _, exec_step (by decide), by decide +kernel⟩

/-- Both sides of the range: the last block runs, and the index beyond it is refused. -/
theorem witness_StepRefusedOutsideIndexRange : (inTransfer start 8191).regs.index.toNat < start.cfg.lit.nBlocks ∧
    start.cfg.lit.nBlocks ≤ (inTransfer start 8192).regs.index.toNat := by decide

theorem witness_BlocksTileTheWindow : Config.example9.lit = Literals.document ∧ address Config.example9 0 = 0x100000 ∧
    address Config.example9 8191 + 63 = 0x17FFFF := by decide +kernel

theorem witness_EveryStepKeepsInvariant : (pend 0x0006 (ready tiny 0x1000 0x00 0x5840)).Inv ∧
    ∃ t, step (pend 0x0006 (ready tiny 0x1000 0x00 0x5840)) = .next t ∧ t.regs.mode = .transferring :=
  ⟨inv_start _ _ rfl rfl _, _, rfl, by decide +kernel⟩

theorem witness_InvariantStatesNeverStop : (pend 0x0006 start).Inv := inv_start _ _ rfl rfl _

theorem witness_WriteEnableFollowsMode :
    (LatchFollowsMode start.regs ∧ ∃ t, step (pend 0x0001 start) = .next t) ∧
      ((Instr.crcInit ≠ .step) ∧ ∃ t, exec .crcInit start = .next t) ∧
      (∃ t, exec .step (ready tiny 0x1000 0x00 0x5840) = .next t ∧ tiny.regs.mode = .idle ∧ t.regs.mode = .transferring) ∧
      ∃ t, exec .step (ready (inTransfer tiny 1) 0x0000 0x00 0x5840) = .next t ∧ t.regs.mode = .idle :=
  ⟨⟨by simp [LatchFollowsMode, start, State.resetWith, Regs.reset], _, rfl⟩, ⟨by decide, _, rfl⟩,
    ⟨_, exec_step (by decide), by decide +kernel⟩, _, exec_step (by decide), by decide +kernel⟩

theorem witness_OnlyStepMovesTheSession : (Instr.reads 8) ≠ .step ∧ ∃ t, exec (.reads 8) start = .next t := ⟨by decide, _, rfl⟩

theorem witness_MemoryEventsStayInWindow : ∃ t, step (pend 0x0006 (ready tiny 0x1000 0x00 0x5840)) = .next t ∧
    t.env.trace.any isMemoryEvent = true := ⟨_, rfl, by decide +kernel⟩

theorem witness_TransferEndsOnlyByCompletionOrReset :
    (∃ t, step (pend 0x0006 (ready (inTransfer tiny 1) 0x0000 0x00 0x5840)) = .next t ∧ t.regs.mode = .idle) ∧
      ∃ t, step { inTransfer tiny 1 with host := [.reset] } = .next t ∧ t.regs.mode = .idle :=
  ⟨⟨_, rfl, by decide +kernel⟩, _, rfl, rfl⟩

theorem witness_NoHostStrobeWhileTransferring : (inTransfer start 1).regs.mode = .transferring ∧ Instr.pulse ≠ .step ∧
    ∃ t, exec .pulse (inTransfer start 1) = .next t := ⟨rfl, by decide, _, rfl⟩

/-- The state about to poll `poll` and then 0, and to receive a corrupted delivery of a block of one byte and then the right one. -/
def redelivered (s : State) (poll : Nat) : State :=
  { s with env := { s.env with nextP := lineBits 16 poll ++ lineBits 16 0, nextS := blockBits [0x00] 0x0000 ++ blockBits [0x00] 0x5840 } }

/-- A corrupted delivery, then the right one, of a block that is not the last and of the last. -/
theorem witness_RetryRedeliversSameBlock :
    (∃ t u, exec .step (redelivered tiny 0x1000) = .next t ∧ exec .step t = .next u ∧ t.regs.last = .retry ∧
        u.regs.last = .accepted) ∧
      ∃ t u, exec .step (redelivered (inTransfer tiny 1) 0) = .next t ∧ exec .step t = .next u ∧ t.regs.last = .retry ∧
        u.regs.last = .complete :=
  ⟨⟨_, _, exec_step (by decide), exec_step (by decide +kernel), by decide +kernel⟩,
    _, _, exec_step (by decide), exec_step (by decide +kernel), by decide +kernel⟩

/-- A run of two accepted blocks. -/
def wholeTransfer (k : Nat) : State :=
  Nat.repeat transferStep k { tiny with env := { tiny.env with
    nextP := lineBits 16 0x1000 ++ lineBits 16 0, nextS := blockBits [0x00] 0x5840 ++ blockBits [0x00] 0x5840 } }

theorem witness_TransferCompletesAfterNBlocks :
    (wholeTransfer 0).cfg.lit.nBlocks = 2 ∧ (wholeTransfer 0).regs.mode = .idle ∧ (wholeTransfer 0).regs.index = 0 ∧
      (∀ k, k < 2 → exec .step (wholeTransfer k) = .next (wholeTransfer (k + 1))) ∧
      (wholeTransfer 1).regs.poll = (wholeTransfer 0).cfg.plat.startPattern ∧
      ∀ k, k < 2 → (wholeTransfer (k + 1)).regs.rxcrc = (wholeTransfer (k + 1)).regs.lcrc := by
  refine ⟨rfl, rfl, rfl, fun k hk => exec_step ?_, by decide +kernel, by decide +kernel⟩
  revert k
  decide +kernel

theorem witness_BrokenConfigurationRefused :
    (Literals.document.Sound ∧ Platform.example9.Fits Literals.document) ∧
      ¬(Literals.document.Sound ∧ { Platform.example9 with bankSize := 63 }.Fits Literals.document) := by decide +kernel

end Sys2Proof.Tests
end

section
/-! The checksum: the constants' bounds, the generated table, and the width of every update (00_scope.md R7, 40_checksum.md R90, R91,
R95). -/

namespace Sys2Proof.Machine

/-- What sound constants say of the checksum engine (log 5, log 28). -/
theorem sound_crc_bounds {l : Literals} (h : l.Sound) :
    8 ≤ l.crcWidth ∧ l.crcInit.toNat < 2 ^ l.crcWidth ∧ l.crcPoly.toNat < 2 ^ l.crcWidth ∧ 256 ≤ l.crcTableEntries := by
  obtain ⟨-, -, -, -, -, -, -, -, -, hwidth, -, hinit, hpoly, hentries, -⟩ := h
  exact ⟨hwidth, hinit, hpoly, hentries⟩

theorem rom_of_table {l : Literals} {t : CrcTable} (h : l.table = some t) : l.rom = t := by
  simp [Literals.rom, crcRom, h]

theorem rom_of_no_table {l : Literals} (h : l.table = none) : l.rom = crcGenerateFrom l.crcPoly l.crcTableEntries 0 := by
  simp [Literals.rom, crcRom, h]

/-- Keeping an entry to `CRC_WIDTH` loses nothing: the generator stays within the width of the polynomial (R91). -/
theorem tableEntry_of_no_table {l : Literals} (hs : l.Sound) (ht : l.table = none) (i : Byte) :
    tableEntry l i = crcGenerate l.crcPoly i.toNat := by
  obtain ⟨hwidth, -, hpoly, hentries⟩ := sound_crc_bounds hs
  have hi : i.toNat < l.crcTableEntries := lt_of_lt_of_le i.isLt hentries
  have hrom : l.rom[i.toNat]? = some (crcGenerate l.crcPoly i.toNat) := by
    rw [rom_of_no_table ht, (crcGenerateFrom_spec l.crcPoly l.crcTableEntries 0).2 i.toNat hi, Nat.zero_add]
  rw [tableEntry, romEntry, hrom]
  exact toCrcWidth_of_lt (crcGenerate_lt hpoly hwidth i)

/-- The document's table is the listing of R91, entry by entry (log 13). -/
theorem document_rom : Literals.document.rom = crcListing := by decide +kernel

/-- An update fits `CRC_WIDTH` whatever the accumulator held: the shift leaves 8 bits of it, and the width is at least 8. -/
theorem crcUpdate_lt {l : Literals} (hs : l.Sound) (crc : Word) (b : Byte) : (crcUpdate l crc b).toNat < 2 ^ l.crcWidth := by
  obtain ⟨hwidth, -, -, -⟩ := sound_crc_bounds hs
  have hshift : (crc >>> 8).toNat < 2 ^ l.crcWidth := by
    have hbyte : (crc >>> 8).toNat < 2 ^ 8 := by
      rw [BitVec.toNat_ushiftRight, Nat.shiftRight_eq_div_pow]
      omega
    exact lt_of_lt_of_le hbyte (Nat.pow_le_pow_right (by decide) hwidth)
  rw [crcUpdate, BitVec.toNat_xor]
  exact Nat.xor_lt_two_pow hshift (tableEntry_lt l _)

/-- Updates over any bytes keep an accumulator within `CRC_WIDTH`. -/
theorem foldl_crcUpdate_lt {l : Literals} (hs : l.Sound) (bytes : List Byte) {crc : Word} (hcrc : crc.toNat < 2 ^ l.crcWidth) :
    (bytes.foldl (crcUpdate l) crc).toNat < 2 ^ l.crcWidth := by
  induction bytes generalizing crc with
  | nil => exact hcrc
  | cons b bytes ih => exact ih (crcUpdate_lt hs crc b)

theorem checksum_lt {l : Literals} (hs : l.Sound) (bytes : List Byte) : (checksum l bytes).toNat < 2 ^ l.crcWidth := by
  obtain ⟨-, hinit, -, -⟩ := sound_crc_bounds hs
  exact foldl_crcUpdate_lt hs bytes hinit

theorem exec_crcByte (b : Byte) (s : State) :
    exec (.crcByte b) s = .next (s.withCrc (crcUpdate s.cfg.lit s.regs.crc b)) := rfl

/-- Settles O26. For sound constants an entry read is the generator's, so `T[1]` and `T[0x80]` come from eight shift steps of 0xA001;
the listing and the check value of CRC-16/ARC are the document's closed values. -/
theorem tableIsGenerated : Obligations.TableIsGenerated := by
  have hentry := tableEntry_of_no_table Literals.document_sound rfl
  refine ⟨document_rom, fun l hs ht i => tableEntry_of_no_table hs ht i, fun l t ht => rom_of_table ht, rfl, ?_, ?_, ?_⟩
  · rw [hentry]
    decide
  · rw [hentry]
    decide
  · decide +kernel

/-- Settles O27. A state carries the proof that its constants are sound, so `crc.byte` needs no hypothesis about `CRC`. -/
theorem checksumHasCrcWidth : Obligations.ChecksumHasCrcWidth := by
  refine ⟨fun l bytes hs => checksum_lt hs bytes, fun b s t h => ?_⟩
  rw [exec_crcByte] at h
  injection h with h
  subst h
  exact crcUpdate_lt s.cfg.sound s.regs.crc b

end Sys2Proof.Machine
end

section
/-! The step: which writes decode, and when it has a next state (00_scope.md R6, R12, 20_memory.md R55, 30_encoding.md R73). -/

namespace Sys2Proof.Machine

/-- Only writes to `CMD` and to `CRC` are instructions (R55). -/
theorem offset_of_decodeWrite_ok {off : Offset} {v : Word} {i : Instr} (h : decodeWrite off v = .ok i) :
    off = 0x00 ∨ off = 0x04 := by
  by_contra hoff
  obtain ⟨hcmd, hcrc⟩ := not_or.1 hoff
  unfold decodeWrite at h
  rw [if_neg hcmd, if_neg hcrc] at h
  split_ifs at h

theorem accessAccepted_of_decodeWrite_ok {off : Offset} {v : Word} {i : Instr} (h : decodeWrite off v = .ok i) :
    accessAccepted off 16 = true := by
  obtain rfl | rfl := offset_of_decodeWrite_ok h
  · decide
  · decide

theorem writeWindow_ok {off : Offset} {v : Word} {i : Instr} (h : decodeWrite off v = .ok i) (s : State) :
    writeWindow off v s = exec i s := by
  simp [writeWindow, h]

theorem writeWindow_error {off : Offset} {v : Word} {r : Reject} (h : decodeWrite off v = .error r) (s : State) :
    writeWindow off v s = .next (raiseCmdError (rejectError r) s) := by
  simp [writeWindow, h]

theorem execStep_of_index_lt {s : State} (h : s.regs.index.toNat < s.cfg.lit.nBlocks) :
    execStep s = .next (transferStep s) := if_pos h

/-- `step` is the one instruction that can be refused, and an `INDEX` in range rules that out (93 I12). -/
theorem exec_has_next {s : State} (h : s.regs.index.toNat < s.cfg.lit.nBlocks) (i : Instr) : ∃ t, exec i s = .next t := by
  cases i with
  | step => exact ⟨_, execStep_of_index_lt h⟩
  | nop | crcInit | crcByte | pulse | readp | reads | clrerr | wrCrc | reserved => exact ⟨_, rfl⟩

theorem writeWindow_has_next {s : State} (h : s.regs.index.toNat < s.cfg.lit.nBlocks) (off : Offset) (v : Word) :
    ∃ t, writeWindow off v s = .next t := by
  cases hd : decodeWrite off v with
  | ok i =>
    rw [writeWindow_ok hd]
    exact exec_has_next h i
  | error r => exact ⟨_, writeWindow_error hd s⟩

theorem hostAccess_has_next {s : State} (h : s.regs.index.toNat < s.cfg.lit.nBlocks) (a : HostAccess) :
    ∃ t, hostAccess a s = .next t := by
  cases a with
  | read off width => exact ⟨_, rfl⟩
  | write off width v =>
    by_cases ha : accessAccepted off width = true
    · simpa [hostAccess, ha] using writeWindow_has_next h off v
    · exact ⟨_, if_neg ha⟩

theorem takeInput_has_next {s : State} (h : s.regs.index.toNat < s.cfg.lit.nBlocks) (i : HostInput) :
    ∃ t, takeInput i s = .next t := by
  cases i with
  | access a => exact hostAccess_has_next h a
  | reset | cutShort => exact ⟨_, rfl⟩

/-- With no input pending the step leaves the state as it is (60_exceptions.md R182; log 2). -/
theorem step_of_host_nil {s : State} (h : s.host = []) : step s = .next s := by
  simp [step, takeTurn, h]

theorem step_has_next {s : State} (h : s.regs.index.toNat < s.cfg.lit.nBlocks) : ∃ t, step s = .next t := by
  cases hs : s.host with
  | nil => exact ⟨s, step_of_host_nil hs⟩
  | cons i rest =>
    rw [step_head hs]
    exact takeInput_has_next (s := s.withHost rest) h i

/-- Settles O52: of the invariant only the range of `INDEX` is needed. -/
theorem invariantStatesNeverStop : Obligations.InvariantStatesNeverStop := by
  intro s hinv
  obtain ⟨hindex, -⟩ := hinv.session
  exact step_has_next hindex

/-- Settles O7: a write that decodes is at an accepted offset, so the access check of R55 lets it through. -/
theorem stepRunsDecodedInstruction : Obligations.StepRunsDecodedInstruction := by
  intro s off v rest i hhost hdecode
  rw [step_write hhost, if_pos (accessAccepted_of_decodeWrite_ok hdecode), writeWindow_ok hdecode]

end Sys2Proof.Machine
end

section
/-! Building a machine from constants and parameters (00_scope.md R8, R12; log 25). -/

namespace Sys2Proof.Machine

theorem configure_of_ok {l : Literals} {p : Platform} (h : l.Sound ∧ p.Fits l) (latch : Bool) (src : CrcSource) :
    State.configure l p latch src = .next (State.resetWith
      { lit := l, plat := p, primaryPollLatch := latch, crcSource := src, sound := h.1, fits := h.2 }) := dif_pos h

theorem configure_of_broken {l : Literals} {p : Platform} (h : ¬(l.Sound ∧ p.Fits l)) (latch : Bool) (src : CrcSource) :
    State.configure l p latch src = .refused .badConfiguration := dif_neg h

/-- Settles O60. A next state is no refusal, so the refusal comes exactly with a broken constraint; the state answered is the one of
`State.resetWith`. -/
theorem brokenConfigurationRefused : Obligations.BrokenConfigurationRefused := by
  intro l p latch src
  refine ⟨⟨fun hrefused hok => ?_, fun hbroken => configure_of_broken hbroken latch src⟩, fun hok => ?_⟩
  · rw [configure_of_ok hok] at hrefused
    cases hrefused
  · exact ⟨_, configure_of_ok hok latch src, rfl, rfl, rfl, rfl, rfl⟩

end Sys2Proof.Machine
end

section
/-! Running an environment through events of one kind (10_state.md R40): each primitive and each loop of a `step` command reaches
the environment it answers, and what some kinds of event cannot change. -/

namespace Sys2Proof.Machine

/-- `e'` is what events of kind `P` leave of `e`, one after the other. -/
def Env.Reaches (c : Config) (P : Event → Prop) (e e' : Env) : Prop :=
  ∃ evs : List Event, (∀ ev ∈ evs, P ev) ∧ Env.FollowsTo c e evs e'

/-- An event of the link lines: no latch event, no memory event. -/
abbrev LinkEvent (ev : Event) : Prop := ev ≠ .weSet ∧ ev ≠ .weClr ∧ isMemoryEvent ev = false

/-- An event of a block attempt: it leaves the latch alone and touches only the destination window (20_memory.md R50). -/
abbrev AttemptEvent (c : Config) (ev : Event) : Prop := ev ≠ .weSet ∧ ev ≠ .weClr ∧ EventInWindow c ev

theorem LinkEvent.inWindow (c : Config) {ev : Event} (h : LinkEvent ev) : EventInWindow c ev := by
  obtain ⟨-, -, hmem⟩ := h
  cases ev with
  | memW | memR => exact absurd hmem (by simp [isMemoryEvent])
  | pulse | rdP | rdS | weSet | weClr => trivial

theorem LinkEvent.attemptEvent (c : Config) {ev : Event} (h : LinkEvent ev) : AttemptEvent c ev := by
  have hwindow := h.inWindow c
  obtain ⟨hset, hclr, -⟩ := h
  exact ⟨hset, hclr, hwindow⟩

theorem AttemptEvent.inWindow {c : Config} {ev : Event} (h : AttemptEvent c ev) : EventInWindow c ev := by
  obtain ⟨-, -, hwindow⟩ := h
  exact hwindow

theorem linkEvent_pulse : LinkEvent .pulse := by simp [LinkEvent, isMemoryEvent]

theorem linkEvent_readEvent (ep : Endpoint) (b : Bool) : LinkEvent (readEvent ep b) := by
  cases ep <;> simp [LinkEvent, readEvent, isMemoryEvent]

section
variable {c : Config} {P Q : Event → Prop} {e e₁ e₂ : Env}

theorem Env.Reaches.refl : Env.Reaches c P e e := ⟨[], by simp, rfl⟩

theorem Env.Reaches.trans (h₁ : Env.Reaches c P e e₁) (h₂ : Env.Reaches c P e₁ e₂) : Env.Reaches c P e e₂ := by
  obtain ⟨evs₁, hP₁, hf₁⟩ := h₁
  obtain ⟨evs₂, hP₂, hf₂⟩ := h₂
  refine ⟨evs₁ ++ evs₂, fun ev hev => ?_, Env.followsTo_append.2 ⟨e₁, hf₁, hf₂⟩⟩
  rcases List.mem_append.1 hev with hev | hev
  · exact hP₁ ev hev
  · exact hP₂ ev hev

theorem Env.Reaches.mono (h : Env.Reaches c P e e₁) (hPQ : ∀ ev, P ev → Q ev) : Env.Reaches c Q e e₁ := by
  obtain ⟨evs, hP, hf⟩ := h
  exact ⟨evs, fun ev hev => hPQ ev (hP ev hev), hf⟩

theorem Env.Reaches.of_event {ev : Event} (hP : P ev) (h : Env.FollowsTo c e [ev] e₁) : Env.Reaches c P e e₁ :=
  ⟨[ev], by simpa using hP, h⟩

/-- What every event of kind `P` keeps is kept by a run of such events. -/
theorem Env.Reaches.keeps {I : Env → Prop} (hI : ∀ e ev, P ev → I e → I (e.seeing c ev))
    (h : Env.Reaches c P e e₁) (h0 : I e) : I e₁ := by
  obtain ⟨evs, hP, hf⟩ := h
  induction evs generalizing e with
  | nil =>
    cases hf
    exact h0
  | cons ev evs ih => exact ih (hI e ev (hP ev (by simp)) h0) (fun ev' hev' => hP ev' (by simp [hev'])) hf.2

theorem Env.Reaches.trace (h : Env.Reaches c P e e₁) : ∃ evs : List Event, (∀ ev ∈ evs, P ev) ∧ e₁.trace = e.trace ++ evs := by
  obtain ⟨evs, hP, hf⟩ := h
  exact ⟨evs, hP, hf.trace⟩

end

/-! What an event keeps. -/

section
variable {c : Config} {P : Event → Prop} {e e₁ : Env}

theorem Env.seeing_memW (c : Config) (e : Env) (a : Nat) (b : Byte) :
    e.seeing c (.memW a b) = e.memWrite c.plat.destAccepts a b := (Env.memWrite_follows c e a b).2.symm

theorem Env.seeing_mem {ev : Event} (h : ∀ a b, ev ≠ .memW a b) : (e.seeing c ev).mem = e.mem := by
  unfold Env.seeing
  cases ev with
  | memW a b => exact absurd rfl (h a b)
  | memR a b => dsimp only; split <;> rfl
  | pulse | rdP | rdS | weSet | weClr => rfl

theorem Env.seeing_stbP_low (ev : Event) (h : e.stbP = .low) : (e.seeing c ev).stbP = .low := by
  cases ev with
  | memW a b =>
    rw [Env.seeing_memW]
    exact h
  | memR a b => unfold Env.seeing; dsimp only; split <;> exact h
  | pulse => rfl
  | rdP | rdS | weSet | weClr => exact h

theorem Env.memWrite_memoryInWindow {a : Nat} {b : Byte} (hm : MemoryInWindow c e.mem) (ha : InDestination c a) :
    MemoryInWindow c (e.memWrite c.plat.destAccepts a b).mem := by
  obtain ⟨hwf, hin⟩ := hm
  refine ⟨Memory.wf_accept c.plat.destAccepts a b hwf, fun p hp => ?_⟩
  rcases Env.mem_accept hp with rfl | hp
  · exact ha
  · exact hin p hp

theorem Env.seeing_memoryInWindow {ev : Event} (hev : EventInWindow c ev) (hm : MemoryInWindow c e.mem) :
    MemoryInWindow c (e.seeing c ev).mem := by
  cases ev with
  | memW a b =>
    rw [Env.seeing_memW]
    exact Env.memWrite_memoryInWindow hm hev
  | memR | pulse | rdP | rdS | weSet | weClr =>
    rw [Env.seeing_mem (by simp)]
    exact hm

theorem Env.Reaches.stbP_low (h : Env.Reaches c P e e₁) (h0 : e.stbP = .low) : e₁.stbP = .low :=
  h.keeps (I := fun x => x.stbP = .low) (fun _ ev _ hx => Env.seeing_stbP_low ev hx) h0

theorem Env.Reaches.memoryInWindow (h : Env.Reaches c (EventInWindow c) e e₁) (h0 : MemoryInWindow c e.mem) :
    MemoryInWindow c e₁.mem :=
  h.keeps (I := fun x => MemoryInWindow c x.mem) (fun _ _ hev hm => Env.seeing_memoryInWindow hev hm) h0

/-- Without an assertion or a de-assertion the flip-flop and its chosen draws stay (log 7). -/
theorem Env.Reaches.latch (h : Env.Reaches c (AttemptEvent c) e e₁) :
    e₁.latch = e.latch ∧ e₁.nextL = e.nextL := by
  refine h.keeps (I := fun x => x.latch = e.latch ∧ x.nextL = e.nextL) (fun x ev hev hx => ?_) ⟨rfl, rfl⟩
  obtain ⟨hset, hclr, -⟩ := hev
  obtain ⟨hlatch, hnext⟩ := hx
  obtain ⟨hlatch', hnext'⟩ := Env.seeing_latch c x hset hclr
  exact ⟨hlatch'.trans hlatch, hnext'.trans hnext⟩

theorem Env.Reaches.link_mem (h : Env.Reaches c LinkEvent e e₁) : e₁.mem = e.mem := by
  refine h.keeps (I := fun x => x.mem = e.mem) (fun x ev hev hx => ?_) rfl
  rw [Env.seeing_mem, hx]
  rintro a b rfl
  obtain ⟨-, -, hmem⟩ := hev
  exact absurd hmem (by simp [isMemoryEvent])

end

/-! The primitives and the loops. -/

section
variable (c : Config)

theorem Env.pulse_reaches (e : Env) : Env.Reaches c LinkEvent e e.pulse := .of_event linkEvent_pulse (Env.pulse_follows c e)

theorem Env.readBitsFrom_reaches (ep : Endpoint) (k : Nat) :
    ∀ (i : Nat) (v : Word) (e : Env), Env.Reaches c LinkEvent e (Env.readBitsFrom ep k i v e).2 := by
  induction k with
  | zero => exact fun i v e => .refl
  | succ k ih =>
    intro i v e
    have hbit : Env.Reaches c LinkEvent e (e.readBit ep).2 :=
      .of_event (linkEvent_readEvent ep _) (Env.readBit_follows c e ep)
    exact hbit.trans (ih _ _ _)

theorem Env.readBits_reaches (e : Env) (ep : Endpoint) (n : Nat) : Env.Reaches c LinkEvent e (e.readBits ep n).2 :=
  Env.readBitsFrom_reaches c ep n 0 0 e

theorem Env.weSetTimes_reaches (k : Nat) : ∀ e : Env, Env.Reaches c (· = .weSet) e (Env.weSetTimes k e) := by
  induction k with
  | zero => exact fun e => .refl
  | succ k ih =>
    intro e
    have hset : Env.Reaches c (· = .weSet) e e.weSet := .of_event rfl (Env.weSet_follows c e)
    exact hset.trans (ih e.weSet)

theorem pollLine_reaches (e : Env) : Env.Reaches c LinkEvent e (pollLine c e).2 := by
  unfold pollLine
  split
  · exact (Env.pulse_reaches c e).trans (Env.readBits_reaches c _ _ _)
  · exact Env.readBits_reaches c _ _ _

variable {c}

theorem Cursor.add_one_add (a : Cursor) (j : Nat) : a + 1 + BitVec.ofNat 32 j = a + BitVec.ofNat 32 (j + 1) := by
  rw [Nat.add_comm j 1, BitVec.ofNat_add, ← BitVec.add_assoc]
  rfl

theorem Env.memWrite_reaches (e : Env) {a : Nat} (b : Byte) (h : InDestination c a) :
    Env.Reaches c (AttemptEvent c) e (e.memWrite c.plat.destAccepts a b) :=
  .of_event (ev := .memW a b) ⟨by simp, by simp, h⟩ (Env.memWrite_follows c e a b)

theorem Env.memRead_reaches (e : Env) {a : Nat} (h : InDestination c a) :
    Env.Reaches c (AttemptEvent c) e (e.memRead c.plat.destAccepts a).2 :=
  .of_event (ev := .memR a _) ⟨by simp, by simp, h⟩ (Env.memRead_follows c e a)

theorem Env.Reaches.attempt {e e₁ : Env} (h : Env.Reaches c LinkEvent e e₁) : Env.Reaches c (AttemptEvent c) e e₁ :=
  h.mono fun _ hev => hev.attemptEvent c

theorem receivePayload_reaches (k : Nat) : ∀ (cur : Cursor) (e : Env),
    (∀ j, j < k → InDestination c (cur + BitVec.ofNat 32 j).toNat) →
      Env.Reaches c (AttemptEvent c) e (receivePayload c k cur e).2.2 := by
  induction k with
  | zero => exact fun cur e _ => .refl
  | succ k ih =>
    intro cur e hin
    have hcur : InDestination c cur.toNat := by simpa using hin 0 (Nat.succ_pos k)
    refine ((Env.readBits_reaches c e .secondary c.lit.payloadReadBits).attempt.trans
      (Env.memWrite_reaches _ _ hcur)).trans (ih (cur + 1) _ fun j hj => ?_)
    rw [Cursor.add_one_add]
    exact hin (j + 1) (by omega)

theorem readBack_reaches (k : Nat) : ∀ (a : Cursor) (e : Env),
    (∀ j, j < k → InDestination c (a + BitVec.ofNat 32 j).toNat) →
      Env.Reaches c (AttemptEvent c) e (readBack c k a e).2 := by
  induction k with
  | zero => exact fun a e _ => .refl
  | succ k ih =>
    intro a e hin
    have ha : InDestination c a.toNat := by simpa using hin 0 (Nat.succ_pos k)
    refine (Env.memRead_reaches e ha).trans (ih (a + 1) _ fun j hj => ?_)
    rw [Cursor.add_one_add]
    exact hin (j + 1) (by omega)

/-- Every byte of a block lies in the destination window, and the 32-bit cursor reaches it without wrapping (20_memory.md R50,
R52). -/
theorem blockStart_add_inDestination {i j : Nat} (hi : i < c.lit.nBlocks) (hj : j < c.lit.blockBytes) :
    InDestination c (blockStart c i + BitVec.ofNat 32 j).toNat := by
  have hend := address_end c hi
  have hdest := destination_end c
  have haddr := address_eq c i
  have hsum : (blockStart c i + BitVec.ofNat 32 j).toNat = address c i + j := by
    rw [BitVec.toNat_add, blockStart_toNat c hi, BitVec.toNat_ofNat, Nat.mod_eq_of_lt (a := j) (by omega)]
    exact Nat.mod_eq_of_lt (by omega)
  rw [hsum]
  exact ⟨by omega, by omega⟩

theorem localBytes_reaches {i : Nat} (hi : i < c.lit.nBlocks) (rx : List Byte) (e : Env) :
    Env.Reaches c (AttemptEvent c) e (localBytes c (blockStart c i) rx e).2 := by
  unfold localBytes
  split
  · exact readBack_reaches c.lit.blockBytes _ e fun j hj => blockStart_add_inDestination hi hj
  · exact .refl

end

theorem receiveBlock_reaches {s : State} (h : s.regs.index.toNat < s.cfg.lit.nBlocks) :
    Env.Reaches s.cfg (AttemptEvent s.cfg) s.env (receiveBlock s).env := by
  have hpay := receivePayload_reaches s.cfg.lit.blockBytes (blockStart s.cfg s.regs.index.toNat) s.env.pulse
    fun j hj => blockStart_add_inDestination h hj
  have hsum := (Env.readBits_reaches s.cfg (receivePayload s.cfg s.cfg.lit.blockBytes
    (blockStart s.cfg s.regs.index.toNat) s.env.pulse).2.2 .secondary s.cfg.lit.checksumReadBits).attempt
  exact (((Env.pulse_reaches s.cfg s.env).attempt.trans hpay).trans hsum).trans (localBytes_reaches h _ _)

end Sys2Proof.Machine
end

section
/-! What an instruction can do: inversion of `exec`, of the phases of `step`, and the environment each leaves. -/

namespace Sys2Proof.Machine

/-- An instruction other than `step` rewrites `CRC` and the error record, drives one pulse, or reads an endpoint into `DATA`. -/
theorem exec_next_cases {i : Instr} {s t : State} (hi : i ≠ .step) (h : exec i s = .next t) :
    (∃ crc errc, t = s.withRegs { s.regs with crc := crc, errc := errc }) ∨ t = s.withEnv s.env.pulse ∨
      ∃ ep n, t = readIntoData ep n s := by
  have hraise (c : CmdError) : ∃ crc errc, raiseCmdError c s = s.withRegs { s.regs with crc := crc, errc := errc } := by
    obtain ⟨-, hr⟩ | ⟨-, -, hr⟩ := raiseCmdError_cases c s
    · exact ⟨s.regs.crc, some c, hr⟩
    · exact ⟨s.regs.crc, s.regs.errc, hr⟩
  have hread (ep : Endpoint) (n : BitVec 5) (hn : countedRead ep n s = t) :
      (∃ crc errc, t = s.withRegs { s.regs with crc := crc, errc := errc }) ∨ ∃ ep n, t = readIntoData ep n s := by
    subst hn
    unfold countedRead whenIdle
    split
    · split
      · exact .inl (hraise .linkBusy)
      · exact .inr ⟨ep, n.toNat, rfl⟩
    · exact .inl (hraise .badArg)
  cases i with
  | step => exact absurd rfl hi
  | nop => cases h; exact .inl ⟨s.regs.crc, s.regs.errc, rfl⟩
  | crcInit => cases h; exact .inl ⟨s.cfg.lit.crcInit, s.regs.errc, rfl⟩
  | crcByte b => cases h; exact .inl ⟨crcUpdate s.cfg.lit s.regs.crc b, s.regs.errc, rfl⟩
  | wrCrc v => cases h; exact .inl ⟨v, s.regs.errc, rfl⟩
  | clrerr => cases h; exact .inl ⟨s.regs.crc, none, rfl⟩
  | reserved op arg => cases h; exact .inl (hraise .reservedOp)
  | readp n => injection h with h; exact (hread .primary n h).imp_right .inr
  | reads n => injection h with h; exact (hread .secondary n h).imp_right .inr
  | pulse =>
    cases h
    unfold whenIdle
    split
    · exact .inl (hraise .linkBusy)
    · exact .inr (.inl rfl)

theorem exec_step_next {s t : State} (h : exec .step s = .next t) :
    s.regs.index.toNat < s.cfg.lit.nBlocks ∧ t = transferStep s := by
  change execStep s = .next t at h
  unfold execStep at h
  split at h
  · injection h with h
    exact ⟨‹_›, h.symm⟩
  · cases h

/-- The registers after the start poll (42_sequencer.md R132, R141). -/
def polledRegs (s : State) : Regs := { s.regs with started := false, last := .none, poll := (pollLine s.cfg s.env).1 }

/-- The poll and start phases: the poll alone, or from Idle the start transition after it (R132, R133). -/
theorem pollAndStart_cases (s : State) :
    pollAndStart s = (s.withRegs (polledRegs s)).withEnv (pollLine s.cfg s.env).2 ∨
      pollAndStart s = (s.withRegs (startRegs (polledRegs s))).withEnv
        (Env.weSetTimes s.cfg.lit.weAssertCount (pollLine s.cfg s.env).2) := by
  have hpoll : pollPhase (clearResult s) = (s.withRegs (polledRegs s)).withEnv (pollLine s.cfg s.env).2 := rfl
  rw [pollAndStart, hpoll, startPhase]
  split
  · exact .inr rfl
  · exact .inl rfl

/-- The verdict on an attempt: a retry, the next block, or the completion of the transfer (R139, R140). -/
theorem judgeBlock_outcomes (s : State) :
    judgeBlock s = retryBlock s ∨
      (s.regs.index.toNat + 1 ≠ s.cfg.lit.nBlocks ∧ judgeBlock s = s.withRegs (acceptRegs s.regs.index.toNat s.regs)) ∨
      judgeBlock s = completeTransfer s := by
  unfold judgeBlock acceptBlock
  split
  · exact .inl rfl
  · dsimp only
    split
    · exact .inr (.inr rfl)
    · exact .inr (.inl ⟨‹_›, rfl⟩)

/-- The attempt follows the poll and start phases exactly where they leave the mode Transferring (R131, D10). -/
theorem transferStep_cases (s : State) :
    transferStep s = pollAndStart s ∨
      ((pollAndStart s).regs.mode = .transferring ∧ transferStep s = judgeBlock (receiveBlock (pollAndStart s))) := by
  unfold transferStep
  cases hm : (pollAndStart s).regs.mode with
  | idle => exact .inl (by simp only [hm])
  | transferring => exact .inr ⟨rfl, by simp only [hm]⟩

/-! No phase changes the configuration, and the poll and start phases leave `INDEX`. -/

@[simp] theorem receiveBlock_cfg (s : State) : (receiveBlock s).cfg = s.cfg := rfl

@[simp] theorem pollAndStart_cfg (s : State) : (pollAndStart s).cfg = s.cfg := by
  obtain h | h := pollAndStart_cases s <;> rw [h] <;> rfl

@[simp] theorem pollAndStart_index (s : State) : (pollAndStart s).regs.index = s.regs.index := by
  obtain h | h := pollAndStart_cases s <;> rw [h] <;> rfl

@[simp] theorem judgeBlock_cfg (s : State) : (judgeBlock s).cfg = s.cfg := by
  obtain h | ⟨-, h⟩ | h := judgeBlock_outcomes s <;> rw [h] <;> rfl

@[simp] theorem transferStep_cfg (s : State) : (transferStep s).cfg = s.cfg := by
  obtain h | ⟨-, h⟩ := transferStep_cases s <;> simp [h]

theorem exec_cfg {i : Instr} {s t : State} (h : exec i s = .next t) : t.cfg = s.cfg := by
  by_cases hi : i = .step
  · subst hi
    obtain ⟨-, rfl⟩ := exec_step_next h
    exact transferStep_cfg s
  · obtain ⟨-, -, rfl⟩ | rfl | ⟨-, -, rfl⟩ := exec_next_cases hi h <;> rfl

/-! The environment each phase leaves. -/

theorem pollAndStart_reaches (s : State) : Env.Reaches s.cfg (EventInWindow s.cfg) s.env (pollAndStart s).env := by
  have hpoll : Env.Reaches s.cfg (EventInWindow s.cfg) s.env (pollLine s.cfg s.env).2 :=
    (pollLine_reaches s.cfg s.env).mono fun _ hev => hev.inWindow s.cfg
  obtain h | h := pollAndStart_cases s
  · rw [h]
    exact hpoll
  · rw [h]
    exact hpoll.trans ((Env.weSetTimes_reaches s.cfg _ _).mono fun _ hev => hev ▸ trivial)

theorem judgeBlock_reaches (s : State) : Env.Reaches s.cfg (EventInWindow s.cfg) s.env (judgeBlock s).env := by
  obtain h | ⟨-, h⟩ | h := judgeBlock_outcomes s
  · rw [h]
    exact (Env.pulse_reaches s.cfg s.env).mono fun _ hev => hev.inWindow s.cfg
  · rw [h]
    exact .refl
  · rw [h]
    exact .of_event (ev := .weClr) trivial (Env.weClr_follows s.cfg s.env)

theorem transferStep_reaches {s : State} (hs : s.regs.index.toNat < s.cfg.lit.nBlocks) :
    Env.Reaches s.cfg (EventInWindow s.cfg) s.env (transferStep s).env := by
  obtain h | ⟨-, h⟩ := transferStep_cases s
  · rw [h]
    exact pollAndStart_reaches s
  · have hattempt := receiveBlock_reaches (s := pollAndStart s) (by simpa using hs)
    have hjudge := judgeBlock_reaches (receiveBlock (pollAndStart s))
    simp only [receiveBlock_cfg, pollAndStart_cfg] at hattempt hjudge
    rw [h]
    exact ((pollAndStart_reaches s).trans (hattempt.mono fun _ hev => hev.inWindow)).trans hjudge

theorem exec_reaches_link {i : Instr} {s t : State} (hi : i ≠ .step) (h : exec i s = .next t) :
    Env.Reaches s.cfg LinkEvent s.env t.env := by
  obtain ⟨-, -, rfl⟩ | rfl | ⟨ep, n, rfl⟩ := exec_next_cases hi h
  · exact .refl
  · exact Env.pulse_reaches s.cfg s.env
  · exact Env.readBits_reaches s.cfg s.env ep n

theorem exec_reaches {i : Instr} {s t : State} (h : exec i s = .next t) :
    Env.Reaches s.cfg (EventInWindow s.cfg) s.env t.env := by
  by_cases hi : i = .step
  · subst hi
    obtain ⟨hindex, rfl⟩ := exec_step_next h
    exact transferStep_reaches hindex
  · exact (exec_reaches_link hi h).mono fun _ hev => hev.inWindow s.cfg

/-- Settles O45: every instruction reaches its environment through its events, and events end the trace in order. -/
theorem environmentFollowsEvents : Obligations.EnvironmentFollowsEvents := by
  intro i s t h
  obtain ⟨evs, -, hevs⟩ := exec_reaches h
  exact ⟨evs, hevs.trace, hevs⟩

/-- Settles O54: the events of an instruction other than `step` are those of the link lines, which neither draw the flip-flop nor
store. -/
theorem onlyStepMovesTheSession : Obligations.OnlyStepMovesTheSession := by
  intro i s t hi h
  have henv := exec_reaches_link hi h
  obtain ⟨hlatch, -⟩ := henv.attempt.latch
  obtain ⟨evs, hlink, htrace⟩ := henv.trace
  refine ⟨?_, henv.link_mem, hlatch, evs, htrace, hlink⟩
  obtain ⟨-, -, rfl⟩ | rfl | ⟨-, -, rfl⟩ := exec_next_cases hi h <;> rfl

end Sys2Proof.Machine
end

section
/-! The machine invariant: at reset, and through every step (10_state.md R26, R29, R30, R32, R38, 42_sequencer.md R144). -/

namespace Sys2Proof.Machine

/-- The part of the invariant that speaks of the registers. -/
structure RegsInv (c : Config) (r : Regs) : Prop where
  latch : LatchFollowsMode r
  session : SessionInRange c r
  cursors : CursorsAgree c r

theorem State.Inv.regsInv {s : State} (h : s.Inv) : RegsInv s.cfg s.regs := ⟨h.latch, h.session, h.cursors⟩

/-- The strobe and memory parts of the invariant follow from the events alone. -/
theorem State.Inv.of_reaches {s t : State} (hs : s.Inv) (hcfg : t.cfg = s.cfg) (hregs : RegsInv s.cfg t.regs)
    (henv : Env.Reaches s.cfg (EventInWindow s.cfg) s.env t.env) : t.Inv where
  latch := hregs.latch
  session := hcfg ▸ hregs.session
  cursors := hcfg ▸ hregs.cursors
  strobe := henv.stbP_low hs.strobe
  memory := hcfg ▸ henv.memoryInWindow hs.memory

section
variable {c : Config} {r : Regs}

theorem nBlocks_pos (c : Config) : 0 < c.lit.nBlocks := by
  obtain ⟨-, hblocks, -⟩ := c.sound
  exact hblocks

theorem regsInv_reset (c : Config) : RegsInv c (Regs.reset c.lit) where
  latch := by simp [LatchFollowsMode, Regs.reset]
  session := ⟨nBlocks_pos c, fun _ => rfl⟩
  cursors := .inl ⟨rfl, rfl⟩

/-- The registers outside the session and the cursors are free. -/
theorem RegsInv.free (h : RegsInv c r) (started : Bool) (last : LastResult) (errc : Option CmdError)
    (crc data poll rxcrc lcrc : Word) :
    RegsInv c { r with started, last, errc, crc, data, poll, rxcrc, lcrc } := ⟨h.latch, h.session, h.cursors⟩

theorem RegsInv.startRegs (h : RegsInv c r) : RegsInv c (startRegs r) where
  latch := by simp [LatchFollowsMode, Machine.startRegs]
  session := ⟨h.session.1, nofun⟩
  cursors := h.cursors

/-- `INDEX` advances below `N_BLOCKS`, which fits 16 bits (00_scope.md R8; log 21). -/
theorem RegsInv.acceptRegs (h : RegsInv c r) (hmode : r.mode = .transferring) (hnext : r.index.toNat + 1 ≠ c.lit.nBlocks) :
    RegsInv c (acceptRegs r.index.toNat r) where
  latch := h.latch
  session := by
    obtain ⟨hindex, -⟩ := h.session
    obtain ⟨-, -, -, -, -, hblocks⟩ := c.fits
    have hval : (Machine.acceptRegs r.index.toNat r).index.toNat = r.index.toNat + 1 := by
      rw [Machine.acceptRegs, BitVec.toNat_ofNat]
      exact Nat.mod_eq_of_lt (by omega)
    exact ⟨by omega, fun hidle => absurd (hmode.symm.trans hidle) (by decide)⟩
  cursors := h.cursors

theorem RegsInv.completeRegs (h : RegsInv c r) : RegsInv c (completeRegs r) where
  latch := by simp [LatchFollowsMode, Machine.completeRegs]
  session := ⟨nBlocks_pos c, fun _ => rfl⟩
  cursors := h.cursors

end

/-- The payload loop leaves the cursor one past the bytes it received (42_sequencer.md R136). -/
theorem receivePayload_cursor (c : Config) {i : Nat} (hi : i < c.lit.nBlocks) (e : Env) :
    (receivePayload c c.lit.blockBytes (blockStart c i) e).2.1 = blockStart c i + BitVec.ofNat 32 c.lit.blockBytes := by
  have hfit : (blockStart c i).toNat + c.lit.blockBytes ≤ 2 ^ 32 := by
    rw [blockStart_toNat c hi]
    exact (address_end c hi).trans (destination_end c)
  obtain ⟨_, -, -, -, h⟩ := receivePayload_spec c c.lit.blockBytes (blockStart c i) e hfit
  rw [h]

theorem receiveBlock_regsInv {s : State} (h : RegsInv s.cfg s.regs) : RegsInv s.cfg (receiveBlock s).regs where
  latch := h.latch
  session := h.session
  cursors := .inr ⟨s.regs.index.toNat, h.session.1, rfl, receivePayload_cursor s.cfg h.session.1 s.env.pulse⟩

theorem pollAndStart_regsInv {s : State} (h : RegsInv s.cfg s.regs) : RegsInv s.cfg (pollAndStart s).regs := by
  have hpolled : RegsInv s.cfg (polledRegs s) := h.free _ _ _ _ _ _ _ _
  obtain hcase | hcase := pollAndStart_cases s
  · rw [hcase]
    exact hpolled
  · rw [hcase]
    exact hpolled.startRegs

theorem judgeBlock_regsInv {s : State} (h : RegsInv s.cfg s.regs) (hmode : s.regs.mode = .transferring) :
    RegsInv s.cfg (judgeBlock s).regs := by
  obtain hcase | ⟨hnext, hcase⟩ | hcase := judgeBlock_outcomes s
  · rw [hcase]
    exact h.free _ _ _ _ _ _ _ _
  · rw [hcase]
    exact h.acceptRegs hmode hnext
  · rw [hcase]
    exact h.completeRegs

theorem transferStep_regsInv {s : State} (h : RegsInv s.cfg s.regs) : RegsInv s.cfg (transferStep s).regs := by
  have hstart : RegsInv (pollAndStart s).cfg (pollAndStart s).regs := by
    rw [pollAndStart_cfg]
    exact pollAndStart_regsInv h
  obtain hcase | ⟨hmode, hcase⟩ := transferStep_cases s
  · rw [hcase]
    exact pollAndStart_regsInv h
  · have hjudged := judgeBlock_regsInv (s := receiveBlock (pollAndStart s)) (receiveBlock_regsInv hstart) hmode
    rw [receiveBlock_cfg, pollAndStart_cfg] at hjudged
    rw [hcase]
    exact hjudged

theorem exec_regsInv {i : Instr} {s t : State} (h : RegsInv s.cfg s.regs) (hexec : exec i s = .next t) :
    RegsInv s.cfg t.regs := by
  by_cases hi : i = .step
  · subst hi
    obtain ⟨-, rfl⟩ := exec_step_next hexec
    exact transferStep_regsInv h
  · obtain ⟨-, -, rfl⟩ | rfl | ⟨-, -, rfl⟩ := exec_next_cases hi hexec
    · exact h.free _ _ _ _ _ _ _ _
    · exact h
    · exact h.free _ _ _ _ _ _ _ _

theorem exec_inv {i : Instr} {s t : State} (h : s.Inv) (hexec : exec i s = .next t) : t.Inv :=
  h.of_reaches (exec_cfg hexec) (exec_regsInv h.regsInv hexec) (exec_reaches hexec)

/-- The invariant does not speak of the pending inputs. -/
theorem State.Inv.withHost {s : State} (h : s.Inv) (rest : List HostInput) : (s.withHost rest).Inv :=
  ⟨h.latch, h.session, h.cursors, h.strobe, h.memory⟩

theorem State.Inv.withReply {s : State} (h : s.Inv) (v : Option Word) : (s.withReply v).Inv :=
  ⟨h.latch, h.session, h.cursors, h.strobe, h.memory⟩

theorem raiseCmdError_inv {s : State} (h : s.Inv) (c : CmdError) : (raiseCmdError c s).Inv := by
  obtain ⟨-, hraise⟩ | ⟨-, -, hraise⟩ := raiseCmdError_cases c s
  · rw [hraise]
    exact ⟨h.latch, h.session, h.cursors, h.strobe, h.memory⟩
  · rw [hraise]
    exact h

theorem readWindow_inv {s : State} (h : s.Inv) (off : Offset) (width : Nat) : (readWindow off width s).Inv := by
  unfold readWindow
  dsimp only
  split
  · exact h.withReply _
  · exact (raiseCmdError_inv h .badAccess).withReply _

/-- Reset registers, the strobe low and an empty memory have the invariant, whatever came before. -/
theorem inv_of_reset {s : State} (hregs : s.regs = Regs.reset s.cfg.lit) (hstrobe : s.env.stbP = .low) (hmem : s.env.mem = []) :
    s.Inv := by
  have h : RegsInv s.cfg s.regs := hregs ▸ regsInv_reset s.cfg
  exact ⟨h.latch, h.session, h.cursors, hstrobe, by rw [hmem]; exact ⟨rfl, by simp⟩⟩

/-- Settles O51, by the inversion of a step: no input, a reset, a read, a refused write or an instruction. -/
theorem everyStepKeepsInvariant : Obligations.EveryStepKeepsInvariant := by
  intro s t hs hstep
  obtain ⟨-, rfl⟩ | ⟨i, rest, -, -, rfl⟩ | ⟨off, width, rest, -, rfl⟩ | ⟨-, -, -, rest, c, -, rfl⟩ |
    ⟨-, -, rest, i, -, -, hexec⟩ := step_next_cases hstep
  · exact hs
  · exact inv_of_reset rfl rfl rfl
  · exact readWindow_inv (hs.withHost rest) off width
  · exact raiseCmdError_inv (hs.withHost rest) c
  · exact exec_inv (hs.withHost rest) hexec

/-- Settles O50: the registers of R41 have the invariant for every sound configuration. -/
theorem resetHasInvariant : Obligations.ResetHasInvariant :=
  ⟨inv_of_reset rfl rfl rfl, fun _ => inv_of_reset rfl rfl rfl⟩

end Sys2Proof.Machine
end

section
/-! The external flip-flop after a `step` command (10_state.md R38, 42_sequencer.md R133, R140, 92_eei_decisions.md D26). -/

namespace Sys2Proof.Machine

/-- A de-assertion uses up one chosen draw and leaves the flip-flop at it (log 7). -/
theorem Env.weClr_draws (e : Env) :
    e.weClr.nextL = e.nextL.tail ∧ e.weClr.latch = (e.nextL.head?).getD (Config.latchDraw e.weClr.trace) := by
  unfold Env.weClr Env.drawLatch
  cases h : e.nextL <;> simp [h]

/-- From `e` to `e'` the flip-flop and its chosen draws stay, and no assertion is made. -/
def Env.KeepsLatch (e e' : Env) : Prop :=
  e'.latch = e.latch ∧ e'.nextL = e.nextL ∧ ∃ evs : List Event, e'.trace = e.trace ++ evs ∧ .weSet ∉ evs

theorem Env.KeepsLatch.refl (e : Env) : Env.KeepsLatch e e := ⟨rfl, rfl, [], by simp, by simp⟩

theorem Env.Reaches.keepsLatch {c : Config} {e e' : Env} (h : Env.Reaches c (AttemptEvent c) e e') : Env.KeepsLatch e e' := by
  obtain ⟨hlatch, hnext⟩ := h.latch
  obtain ⟨evs, hevs, htrace⟩ := h.trace
  refine ⟨hlatch, hnext, evs, htrace, fun hmem => ?_⟩
  obtain ⟨hset, -⟩ := hevs _ hmem
  exact hset rfl

theorem Env.KeepsLatch.trans {e e₁ e₂ : Env} (h₁ : Env.KeepsLatch e e₁) (h₂ : Env.KeepsLatch e₁ e₂) :
    Env.KeepsLatch e e₂ := by
  obtain ⟨hl₁, hn₁, evs₁, ht₁, hw₁⟩ := h₁
  obtain ⟨hl₂, hn₂, evs₂, ht₂, hw₂⟩ := h₂
  exact ⟨hl₂.trans hl₁, hn₂.trans hn₁, evs₁ ++ evs₂, by rw [ht₂, ht₁, List.append_assoc], by simp [hw₁, hw₂]⟩

/-- From `e` to `e'` lie the `n` assertions of a start: each drew the flip-flop, and it is left at the last draw. -/
def Env.StartDraws (n : Nat) (e e' : Env) : Prop :=
  e'.nextL = e.nextL.drop n ∧ (n = 0 → e'.latch = e.latch) ∧
    (0 < n → ∃ pre : List Event, e'.trace = e.trace ++ pre ++ List.replicate n .weSet ∧ .weSet ∉ pre ∧
      e'.latch = (e.nextL[n - 1]?).getD (Config.latchDraw (e.trace ++ pre ++ List.replicate n .weSet)))

theorem Env.KeepsLatch.startDraws {e e₁ : Env} (h : Env.KeepsLatch e e₁) (n : Nat) :
    Env.StartDraws n e (Env.weSetTimes n e₁) := by
  obtain ⟨hlatch, hnext, pre, htrace, hpre⟩ := h
  obtain ⟨hdrop, hdraw⟩ := Env.weSetTimes_draws n e₁
  refine ⟨by rw [hdrop, hnext], fun hn => ?_, fun hn => ⟨pre, ?_, hpre, ?_⟩⟩
  · subst hn
    exact hlatch
  · obtain ⟨_, _, hset⟩ := Env.weSetTimes_spec n e₁
    rw [hset, htrace]
  · rw [hdraw hn, hnext, htrace]

theorem latchDraws_of_last_ne {c : Config} {r : Regs} (h : r.last ≠ .complete) :
    latchDraws c r = if r.started then c.lit.weAssertCount else 0 := by
  rw [latchDraws, if_neg h, Nat.add_zero]

theorem latchDraws_of_last_eq {c : Config} {r : Regs} (h : r.last = .complete) :
    latchDraws c r = (if r.started then c.lit.weAssertCount else 0) + 1 := by
  rw [latchDraws, if_pos h]

theorem pollAndStart_last (s : State) : (pollAndStart s).regs.last ≠ .complete := by
  obtain h | h := pollAndStart_cases s
  · rw [h]
    nofun
  · rw [h]
    nofun

/-- The poll draws the flip-flop nowhere, and a start at each of its assertions (R133). -/
theorem pollAndStart_draws (s : State) :
    Env.StartDraws (if (pollAndStart s).regs.started then s.cfg.lit.weAssertCount else 0) s.env (pollAndStart s).env := by
  have hpoll : Env.KeepsLatch s.env (pollLine s.cfg s.env).2 :=
    (pollLine_reaches s.cfg s.env).attempt.keepsLatch
  obtain h | h := pollAndStart_cases s
  · rw [h]
    exact hpoll.startDraws 0
  · rw [h]
    exact hpoll.startDraws s.cfg.lit.weAssertCount

/-- The de-assertion of a completion: one draw, at the end of the trace. -/
def Env.CompletionDraws (e e' : Env) : Prop :=
  e'.nextL = e.nextL.tail ∧ e'.latch = (e.nextL.head?).getD (Config.latchDraw e'.trace)

/-- The verdict draws the flip-flop exactly where it completes the transfer (R140). -/
theorem judgeBlock_latch (s : State) :
    (judgeBlock s).regs.started = s.regs.started ∧
      (((judgeBlock s).regs.last ≠ .complete ∧ Env.KeepsLatch s.env (judgeBlock s).env) ∨
        ((judgeBlock s).regs.last = .complete ∧ Env.CompletionDraws s.env (judgeBlock s).env)) := by
  obtain h | ⟨-, h⟩ | h := judgeBlock_outcomes s
  · rw [h]
    exact ⟨rfl, .inl ⟨nofun, (Env.pulse_reaches s.cfg s.env).attempt.keepsLatch⟩⟩
  · rw [h]
    exact ⟨rfl, .inl ⟨nofun, .refl _⟩⟩
  · rw [h]
    exact ⟨rfl, .inr ⟨rfl, Env.weClr_draws s.env⟩⟩

/-- After the start phase, only a completion draws the flip-flop. -/
theorem transferStep_latch {s : State} (hs : s.regs.index.toNat < s.cfg.lit.nBlocks) :
    (transferStep s).regs.started = (pollAndStart s).regs.started ∧
      (((transferStep s).regs.last ≠ .complete ∧ Env.KeepsLatch (pollAndStart s).env (transferStep s).env) ∨
        ((transferStep s).regs.last = .complete ∧
          Env.CompletionDraws (pollAndStart s).env (transferStep s).env)) := by
  obtain h | ⟨-, h⟩ := transferStep_cases s
  · rw [h]
    exact ⟨rfl, .inl ⟨pollAndStart_last s, .refl _⟩⟩
  · have hattempt : Env.KeepsLatch (pollAndStart s).env (receiveBlock (pollAndStart s)).env :=
      (receiveBlock_reaches (s := pollAndStart s) (by simpa using hs)).keepsLatch
    obtain ⟨hstarted, hjudge⟩ := judgeBlock_latch (receiveBlock (pollAndStart s))
    rw [h]
    refine ⟨hstarted, ?_⟩
    obtain ⟨hlast, hkeeps⟩ | ⟨hlast, hdraws⟩ := hjudge
    · exact .inl ⟨hlast, hattempt.trans hkeeps⟩
    · obtain ⟨-, hnext, -⟩ := hattempt
      refine .inr ⟨hlast, ?_⟩
      unfold Env.CompletionDraws
      rw [← hnext]
      exact hdraws

/-- Settles O44: a start uses up the first draws and a completion the next one, and nothing else of the command draws. -/
theorem flipFlopIsDrawn : Obligations.FlipFlopIsDrawn := by
  intro s t h
  obtain ⟨hindex, rfl⟩ := exec_step_next h
  obtain ⟨hnextStart, hlatchStart, hpreStart⟩ := pollAndStart_draws s
  obtain ⟨hstarted, ⟨hlast, hlatch, hnext, post, htrace, hpost⟩ | ⟨hlast, hnext, hlatch⟩⟩ := transferStep_latch hindex
  · rw [← hstarted] at hnextStart hlatchStart hpreStart
    rw [latchDraws_of_last_ne hlast]
    refine ⟨hnext.trans hnextStart, fun hnone => hlatch.trans (hlatchStart hnone), fun hcomplete => absurd hcomplete hlast,
      fun hst _ hcount => ?_⟩
    rw [if_pos hst] at hpreStart
    obtain ⟨pre, htraceStart, hpre, hdraw⟩ := hpreStart hcount
    exact ⟨pre, post, by rw [htrace, htraceStart], hpre, hpost, hlatch.trans hdraw⟩
  · rw [← hstarted] at hnextStart
    rw [latchDraws_of_last_eq hlast]
    refine ⟨?_, nofun, fun _ => ?_, fun _ hincomplete => absurd hlast hincomplete⟩
    · rw [hnext, hnextStart, List.tail_drop]
    · rw [hlatch, hnextStart, List.head?_drop, Nat.add_sub_cancel]

end Sys2Proof.Machine
end

section
/-! The register window: reset values, the register map, the visible cursors, the `STATUS` word and the address decode (10_state.md
R21, R22, R29, R30, R41, 20_memory.md R50, R54). -/

namespace Sys2Proof.Machine

/-- Settles O5. The table is the one value that is not read off the reset state directly. -/
theorem resetValues : Obligations.ResetValues :=
  ⟨rfl, rfl, rfl, rfl, rfl, rfl, rfl, rfl, rfl, rfl, rfl, rfl, rfl, rfl, rfl, document_rom, rfl, rfl, rfl, rfl, rfl⟩

/-- An accepted read returns the register at its offset (R55). -/
theorem readValue_of_registerAt {off : Offset} {r : RegName} (hoff : accessAccepted off 16 = true) (hreg : registerAt off = some r)
    (s : State) : readValue off 16 s = s.readRegister r := by
  simp [readValue, hoff, hreg]

/-- No register stands in the last eight bytes of the window (R21). -/
theorem registerAt_above : ∀ off : Offset, 0x18 ≤ off.toNat → registerAt off = none := by decide

theorem readValue_of_no_register {off : Offset} (h : registerAt off = none) (width : Nat) (s : State) :
    readValue off width s = 0 := by
  simp [readValue, h]

theorem halves_append (v : Cursor) : v.extractLsb' 16 16 ++ v.extractLsb' 0 16 = v := by
  rw [BitVec.extractLsb'_append_extractLsb'_eq_extractLsb' (by omega)]
  exact BitVec.extractLsb'_eq_self

/-- Settles O10, offset by offset; the two halves of a cursor are those of the visible value. -/
theorem registerMap : Obligations.RegisterMap := by
  intro s
  refine ⟨readValue_of_registerAt (r := .cmd) rfl rfl s, readValue_of_registerAt (r := .status) rfl rfl s,
    readValue_of_registerAt (r := .crc) rfl rfl s, readValue_of_registerAt (r := .data) rfl rfl s,
    readValue_of_registerAt (r := .poll) rfl rfl s, readValue_of_registerAt (r := .index) rfl rfl s,
    readValue_of_registerAt (r := .rxcrc) rfl rfl s, readValue_of_registerAt (r := .lcrc) rfl rfl s, ?_, ?_, fun off hoff => ?_⟩
  · rw [readValue_of_registerAt (r := .cursorHi) rfl rfl, readValue_of_registerAt (r := .cursorLo) rfl rfl]
    exact halves_append _
  · rw [readValue_of_registerAt (r := .bstartHi) rfl rfl, readValue_of_registerAt (r := .bstartLo) rfl rfl]
    exact halves_append _
  · have hnone := registerAt_above off hoff
    exact ⟨hnone, fun width => readValue_of_no_register hnone width s⟩

/-- Settles O11: the mask is a remainder by `2 ^ ADDR_WIDTH`, and a held bit above the register is 0. -/
theorem cursorHighBitsReadZero : Obligations.CursorHighBitsReadZero := by
  intro c v i
  rw [visibleCursor, BitVec.getLsbD_ofNat, Nat.testBit_mod_two_pow, BitVec.testBit_toNat]
  by_cases hi : i < 32
  · simp [hi]
  · rw [BitVec.getLsbD_of_ge v i (by omega)]
    simp

theorem windowOffset_inside (c : Config) (off : Offset) : windowOffset c (c.plat.regBase + off.toNat) = some off := by
  have hoff := off.isLt
  rw [windowOffset, if_pos ⟨by omega, by omega⟩, Nat.add_sub_cancel_left, BitVec.ofNat_toNat, BitVec.setWidth_eq]

theorem windowOffset_outside {c : Config} {addr : Nat} (h : addr < c.plat.regBase ∨ c.plat.regBase + 32 ≤ addr) :
    windowOffset c addr = none := if_neg (by omega)

/-- Settles O13: an offset below 32 is the window offset of its address, and no other address has one. -/
theorem windowDecode : Obligations.WindowDecode := by
  intro s addr access
  refine ⟨fun off haddr => ?_, fun haddr => ?_⟩
  · rw [State.onBus, haddr, windowOffset_inside]
    rfl
  · rw [State.onBus, windowOffset_outside haddr]

/-! The fields of `STATUS` (R22). Each lies above the fields that are appended after it. -/

section
variable (r : Regs)

theorem statusWord_mode : r.statusWord.getLsbD 0 = decide (r.mode = .transferring) := by
  change BitVec.getLsbD (w := 7 + 3 + 1 + 1 + 2 + 1 + 1) (_ ++ _) 0 = _
  rw [BitVec.getLsbD_append]
  cases r.mode <;> rfl

theorem statusWord_we : r.statusWord.getLsbD 1 = r.we := by
  change BitVec.getLsbD (w := 7 + 3 + 1 + 1 + 2 + 1 + 1) (_ ++ _ ++ _) 1 = _
  simp only [BitVec.getLsbD_append]
  simp

theorem statusWord_last : r.statusWord.extractLsb' 2 2 = r.last.bits := by
  change BitVec.extractLsb' (n := 7 + 3 + 1 + 1 + 2 + 1 + 1) 2 2 (_ ++ _ ++ _ ++ _) = _
  rw [BitVec.extractLsb'_append_eq_of_le (by decide), BitVec.extractLsb'_append_eq_of_le (by decide)]
  exact BitVec.extractLsb'_append_eq_right

theorem statusWord_started : r.statusWord.getLsbD 4 = r.started := by
  change BitVec.getLsbD (w := 7 + 3 + 1 + 1 + 2 + 1 + 1) (_ ++ _ ++ _ ++ _ ++ _) 4 = _
  simp only [BitVec.getLsbD_append]
  simp

theorem statusWord_err : r.statusWord.getLsbD 5 = (r.errcBits != 0) := by
  change BitVec.getLsbD (w := 7 + 3 + 1 + 1 + 2 + 1 + 1) (_ ++ _ ++ _ ++ _ ++ _ ++ _) 5 = _
  simp only [BitVec.getLsbD_append]
  simp [Regs.errBit]

theorem statusWord_above_err (start len : Nat) :
    r.statusWord.extractLsb' (6 + start) len = ((0 : BitVec 7) ++ r.errcBits).extractLsb' start len := by
  change BitVec.extractLsb' (n := 7 + 3 + 1 + 1 + 2 + 1 + 1) (6 + start) len (_ ++ _ ++ _ ++ _ ++ _ ++ _) = _
  iterate 5 rw [BitVec.extractLsb'_append_eq_of_le (by omega)]
  congr 1
  omega

theorem statusWord_errc : r.statusWord.extractLsb' 6 3 = r.errcBits :=
  (statusWord_above_err r 0 3).trans BitVec.extractLsb'_append_eq_right

theorem statusWord_reserved : r.statusWord.extractLsb' 9 7 = 0 :=
  (statusWord_above_err r 3 7).trans BitVec.extractLsb'_append_eq_left

end

theorem errcBits_of_none {r : Regs} (h : r.errc = none) : r.errcBits = 0 := by
  simp [Regs.errcBits, h]

theorem errcBits_of_some {r : Regs} {c : CmdError} (h : r.errc = some c) : r.errcBits = c.code := by
  simp [Regs.errcBits, h]

theorem CmdError.code_bounds : ∀ c : CmdError, c.code ≠ 0 ∧ c.code.toNat ≤ 4
  | .reservedOp | .badArg | .linkBusy | .badAccess => by decide

/-- `ERRC` is 0 exactly where no error is recorded (R35). -/
theorem errcBits_bounds (r : Regs) : (r.errcBits != 0) = r.errc.isSome ∧ r.errcBits.toNat ≤ 4 := by
  cases h : r.errc with
  | none => simp [errcBits_of_none h]
  | some c =>
    obtain ⟨hne, hle⟩ := c.code_bounds
    rw [errcBits_of_some h]
    exact ⟨bne_iff_ne.2 hne, hle⟩

/-- Settles O12, field by field. -/
theorem statusLayout : Obligations.StatusLayout := by
  intro r
  obtain ⟨hsome, hle⟩ := errcBits_bounds r
  refine ⟨statusWord_mode r, statusWord_we r, statusWord_last r, statusWord_started r, (statusWord_err r).trans hsome,
    statusWord_errc r, statusWord_reserved r, hle, ?_, ?_, ?_, ?_, ?_, ?_, ?_, rfl, rfl, rfl, rfl⟩
  · rw [statusWord_err, statusWord_errc, bne_iff_ne]
  · exact fun h => by rw [statusWord_last, h]; rfl
  · exact fun h => by rw [statusWord_last, h]; rfl
  · exact fun h => by rw [statusWord_last, h]; rfl
  · exact fun h => by rw [statusWord_last, h]; rfl
  · exact fun h => (statusWord_errc r).trans (errcBits_of_none h)
  · exact fun c h => (statusWord_errc r).trans (errcBits_of_some h)

end Sys2Proof.Machine
end

section
/-! The destination memory through a run of events: what the events store, what a read answers, and the order of the accesses of a
`step` command (20_memory.md R58, R59, 92_eei_decisions.md D26). -/

namespace Sys2Proof.Machine

/-- A read inside a run of events answers what the environment holds at that moment (log 3, log 6). -/
theorem Env.FollowsTo.read {c : Config} {e e' : Env} {pre post : List Event} {a : Nat} {v : Byte}
    (h : Env.FollowsTo c e (pre ++ .memR a v :: post) e') :
    ∃ m, Env.FollowsTo c e pre m ∧ Env.FollowsTo c (m.seeing c (.memR a v)) post e' ∧
      v = (m.known c a).getD ((m.nextM.head?).getD (Config.memoryDraw a m.trace)) := by
  obtain ⟨m, hpre, hread, hpost⟩ := Env.followsTo_append.1 h
  exact ⟨m, hpre, hpost, hread⟩

theorem Env.known_eq_read {c : Config} (h : c.plat.destAccepts ≠ .any) (e : Env) (a : Nat) :
    e.known c a = Memory.read e.mem a := by
  unfold Env.known
  cases hd : c.plat.destAccepts with
  | any => exact absurd hd h
  | storeAlways | storeIfLatched => rfl

/-- A storing memory answers a byte it is known to hold (R59). -/
theorem Env.FollowsTo.read_known {c : Config} {e e' : Env} {pre post : List Event} {a : Nat} {v : Byte}
    (hd : c.plat.destAccepts ≠ .any) (h : Env.FollowsTo c e (pre ++ .memR a v :: post) e') :
    ∃ m, Env.FollowsTo c e pre m ∧ Env.FollowsTo c (m.seeing c (.memR a v)) post e' ∧
      ∀ b, Memory.read m.mem a = some b → v = b := by
  obtain ⟨m, hpre, hpost, hv⟩ := h.read
  refine ⟨m, hpre, hpost, fun b hb => ?_⟩
  rw [hv, Env.known_eq_read hd, hb, Option.getD_some]

theorem storeEvents_append (pre post : List Event) :
    ∀ m : Memory, storeEvents m (pre ++ post) = storeEvents (storeEvents m pre) post := by
  induction pre with
  | nil => exact fun m => rfl
  | cons ev pre ih => intro m; cases ev <;> exact ih _

theorem storeEvents_cons (m : Memory) (ev : Event) (evs : List Event) :
    storeEvents m (ev :: evs) = storeEvents (storeEvents m [ev]) evs := storeEvents_append [ev] evs m

/-- The event is no write to the destination memory. -/
abbrev NoWrite (ev : Event) : Prop := ∀ a v, ev ≠ .memW a v

theorem noWrite_of_noMemory {ev : Event} (h : isMemoryEvent ev = false) : NoWrite ev := by
  rintro a v rfl
  simp [isMemoryEvent] at h

theorem storeEvents_of_noWrite {ev : Event} (h : NoWrite ev) (m : Memory) : storeEvents m [ev] = m := by
  cases ev with
  | memW a v => exact absurd rfl (h a v)
  | memR | pulse | rdP | rdS | weSet | weClr => rfl

/-- Where each event leaves in the memory what it stores, so does a run of them. -/
theorem Env.FollowsTo.mem_eq_storeEvents {c : Config} {I : Env → Prop} {evs : List Event}
    (hI : ∀ (e : Env), ∀ ev ∈ evs, I e → I (e.seeing c ev) ∧ (e.seeing c ev).mem = storeEvents e.mem [ev]) :
    ∀ {e e' : Env}, Env.FollowsTo c e evs e' → I e → e'.mem = storeEvents e.mem evs := by
  induction evs with
  | nil => intro e e' h _; cases h; rfl
  | cons ev evs ih =>
    intro e e' h h0
    obtain ⟨h1, hmem⟩ := hI e ev (by simp) h0
    rw [storeEvents_cons, ← hmem]
    exact ih (fun e ev hev => hI e ev (by simp [hev])) h.2 h1

theorem Env.FollowsTo.mem_of_noWrite {c : Config} {evs : List Event} {e e' : Env} (hevs : ∀ ev ∈ evs, NoWrite ev)
    (h : Env.FollowsTo c e evs e') : e'.mem = e.mem :=
  Env.Reaches.keeps (P := NoWrite) (I := fun x => x.mem = e.mem) (fun _ _ hev hx => (Env.seeing_mem hev).trans hx)
    ⟨evs, hevs, h⟩ rfl

theorem storeEvents_of_all_noWrite {evs : List Event} (hevs : ∀ ev ∈ evs, NoWrite ev) (m : Memory) :
    storeEvents m evs = m := by
  induction evs with
  | nil => rfl
  | cons ev evs ih =>
    rw [storeEvents_cons, storeEvents_of_noWrite (hevs ev (by simp))]
    exact ih fun ev hev => hevs ev (by simp [hev])

/-- A write that the destination takes is stored (R58). -/
theorem Env.seeing_mem_of_stores {c : Config} {e : Env}
    (h : ∀ a b, e.accept c.plat.destAccepts a b = e.mem.write a b) (ev : Event) :
    (e.seeing c ev).mem = storeEvents e.mem [ev] := by
  cases ev with
  | memW a b => rw [Env.seeing_memW]; exact h a b
  | memR | pulse | rdP | rdS | weSet | weClr => exact Env.seeing_mem (by simp)

theorem Env.FollowsTo.mem_of_storeAlways {c : Config} {e e' : Env} {evs : List Event}
    (hd : c.plat.destAccepts = .storeAlways) (h : Env.FollowsTo c e evs e') : e'.mem = storeEvents e.mem evs :=
  h.mem_eq_storeEvents (I := fun _ => True)
    (fun e ev _ _ => ⟨trivial, Env.seeing_mem_of_stores (fun a b => by rw [hd]; rfl) ev⟩) trivial

/-- Settles O42: the environment follows the events of the command, each of which leaves in the memory what it stores. -/
theorem storingMemoryFollowsTrace : Obligations.StoringMemoryFollowsTrace := by
  intro s t hd hexec
  obtain ⟨evs, htrace, hevs⟩ := environmentFollowsEvents .step s t hexec
  refine ⟨evs, htrace, hevs.mem_of_storeAlways hd, ?_⟩
  rintro pre post a v b rfl hb
  obtain ⟨m, hpre, -, hknown⟩ := hevs.read_known (by simp [hd])
  rw [← hpre.mem_of_storeAlways hd] at hb
  exact hknown b hb

/-! The order of the accesses of a `step` command: the start phase makes none, then come the writes of the payload, made with one
state of the flip-flop, then the reads (42_sequencer.md R131). -/

/-- An event of an attempt before its read-back: it leaves the latch alone and reads no memory. -/
abbrev ReceiveEvent (ev : Event) : Prop := ev ≠ .weSet ∧ ev ≠ .weClr ∧ ∀ a v, ev ≠ .memR a v

theorem LinkEvent.noWrite {ev : Event} (h : LinkEvent ev) : NoWrite ev := by
  obtain ⟨-, -, hmem⟩ := h
  exact noWrite_of_noMemory hmem

theorem LinkEvent.receiveEvent {ev : Event} (h : LinkEvent ev) : ReceiveEvent ev := by
  obtain ⟨hset, hclr, hmem⟩ := h
  refine ⟨hset, hclr, ?_⟩
  rintro a v rfl
  exact absurd hmem (by simp [isMemoryEvent])

section
variable (c : Config)

theorem receivePayload_reaches_receive (k : Nat) : ∀ (cur : Cursor) (e : Env),
    Env.Reaches c ReceiveEvent e (receivePayload c k cur e).2.2 := by
  induction k with
  | zero => exact fun cur e => .refl
  | succ k ih =>
    intro cur e
    have hbits : Env.Reaches c ReceiveEvent e (e.readBits .secondary c.lit.payloadReadBits).2 :=
      (Env.readBits_reaches c e _ _).mono fun _ hev => hev.receiveEvent
    exact (hbits.trans (.of_event (by simp [ReceiveEvent]) (Env.memWrite_follows c _ cur.toNat _))).trans (ih _ _)

theorem readBack_reaches_noWrite (k : Nat) : ∀ (a : Cursor) (e : Env), Env.Reaches c NoWrite e (readBack c k a e).2 := by
  induction k with
  | zero => exact fun a e => .refl
  | succ k ih =>
    intro a e
    exact (Env.Reaches.of_event (by simp [NoWrite]) (Env.memRead_follows c e a.toNat)).trans (ih _ _)

theorem localBytes_reaches_noWrite (start : Cursor) (rx : List Byte) (e : Env) :
    Env.Reaches c NoWrite e (localBytes c start rx e).2 := by
  unfold localBytes
  split
  · exact readBack_reaches_noWrite c _ _ _
  · exact .refl

end

/-- From `e` to `e'` all writes, made with one state of the flip-flop, come before all reads. -/
def Env.WritesThenReads (c : Config) (e e' : Env) : Prop :=
  ∃ m, Env.Reaches c ReceiveEvent e m ∧ Env.Reaches c NoWrite m e'

theorem receiveBlock_writesThenReads (s : State) : Env.WritesThenReads s.cfg s.env (receiveBlock s).env := by
  have hpulse : Env.Reaches s.cfg ReceiveEvent s.env s.env.pulse :=
    (Env.pulse_reaches s.cfg s.env).mono fun _ hev => hev.receiveEvent
  have hpay := receivePayload_reaches_receive s.cfg s.cfg.lit.blockBytes (blockStart s.cfg s.regs.index.toNat) s.env.pulse
  have hsum := (Env.readBits_reaches s.cfg (receivePayload s.cfg s.cfg.lit.blockBytes
    (blockStart s.cfg s.regs.index.toNat) s.env.pulse).2.2 .secondary s.cfg.lit.checksumReadBits).mono
      fun _ hev => hev.receiveEvent
  exact ⟨_, (hpulse.trans hpay).trans hsum, localBytes_reaches_noWrite s.cfg _ _ _⟩

theorem judgeBlock_reaches_noWrite (s : State) : Env.Reaches s.cfg NoWrite s.env (judgeBlock s).env := by
  obtain h | ⟨-, h⟩ | h := judgeBlock_outcomes s
  · rw [h]
    exact (Env.pulse_reaches s.cfg s.env).mono fun _ hev => hev.noWrite
  · rw [h]
    exact .refl
  · rw [h]
    exact .of_event (by simp [NoWrite]) (Env.weClr_follows s.cfg s.env)

theorem pollAndStart_reaches_noMemory (s : State) :
    Env.Reaches s.cfg (isMemoryEvent · = false) s.env (pollAndStart s).env := by
  have hpoll : Env.Reaches s.cfg (isMemoryEvent · = false) s.env (pollLine s.cfg s.env).2 :=
    (pollLine_reaches s.cfg s.env).mono fun _ ⟨_, _, hmem⟩ => hmem
  obtain h | h := pollAndStart_cases s
  · rw [h]
    exact hpoll
  · rw [h]
    exact hpoll.trans ((Env.weSetTimes_reaches s.cfg _ _).mono fun _ hev => hev ▸ rfl)

/-- After the start phase a `step` command writes first and then reads, whether an attempt follows or not. -/
theorem transferStep_writesThenReads (s : State) :
    Env.WritesThenReads s.cfg (pollAndStart s).env (transferStep s).env := by
  obtain h | ⟨-, h⟩ := transferStep_cases s
  · rw [h]
    exact ⟨_, .refl, .refl⟩
  · obtain ⟨m, hwrites, hreads⟩ := receiveBlock_writesThenReads (pollAndStart s)
    have hjudge := judgeBlock_reaches_noWrite (receiveBlock (pollAndStart s))
    rw [pollAndStart_cfg] at hwrites hreads
    rw [receiveBlock_cfg, pollAndStart_cfg] at hjudge
    rw [h]
    exact ⟨m, hwrites, hreads.trans hjudge⟩

/-! `store-if-latched` (R58, D26). -/

section
variable {c : Config} {e e' : Env} {evs : List Event}

theorem Env.FollowsTo.mem_of_latched (hd : c.plat.destAccepts = .storeIfLatched) (hevs : ∀ ev ∈ evs, ReceiveEvent ev)
    (h : Env.FollowsTo c e evs e') (hl : e.latch = true) : e'.mem = storeEvents e.mem evs := by
  refine h.mem_eq_storeEvents (I := fun x => x.latch = true) (fun x ev hev hx => ⟨?_, ?_⟩) hl
  · obtain ⟨hset, hclr, -⟩ := hevs ev hev
    obtain ⟨hlatch, -⟩ := Env.seeing_latch c x hset hclr
    exact hlatch.trans hx
  · exact Env.seeing_mem_of_stores (fun a b => by simp [Env.accept, hd, hx]) ev

theorem Env.seeing_mem_of_unlatched (hd : c.plat.destAccepts = .storeIfLatched) (hl : e.latch = false) (ev : Event) :
    (e.seeing c ev).mem = e.mem := by
  cases ev with
  | memW a b => simp [Env.seeing_memW, Env.memWrite, Env.accept, hd, hl]
  | memR | pulse | rdP | rdS | weSet | weClr => exact Env.seeing_mem (by simp)

theorem Env.FollowsTo.mem_of_unlatched (hd : c.plat.destAccepts = .storeIfLatched) (hevs : ∀ ev ∈ evs, ReceiveEvent ev)
    (h : Env.FollowsTo c e evs e') (hl : e.latch = false) : e'.mem = e.mem := by
  have hreach : Env.Reaches c ReceiveEvent e e' := ⟨evs, hevs, h⟩
  have hkeep : e'.latch = false ∧ e'.mem = e.mem := by
    refine hreach.keeps (I := fun x => x.latch = false ∧ x.mem = e.mem) (fun x ev hev hx => ?_) ⟨hl, rfl⟩
    obtain ⟨hset, hclr, -⟩ := hev
    obtain ⟨hlatch, hmem⟩ := hx
    obtain ⟨hlatch', -⟩ := Env.seeing_latch c x hset hclr
    exact ⟨hlatch'.trans hlatch, (Env.seeing_mem_of_unlatched hd hlatch ev).trans hmem⟩
  exact hkeep.2

end

/-! `any` (D26). -/

section
variable {c : Config} {e e' : Env} {evs : List Event}

theorem Env.seeing_memW_any (hd : c.plat.destAccepts = .any) (a : Nat) (v : Byte) :
    (e.seeing c (.memW a v)).mem = e.mem.forget a := by
  rw [Env.seeing_memW, hd]
  rfl

/-- Other events than its writes leave a byte as it is. -/
theorem Env.seeing_read_other {ev : Event} {a : Nat} (h : ∀ v, ev ≠ .memW a v) :
    Memory.read (e.seeing c ev).mem a = Memory.read e.mem a := by
  cases ev with
  | memW a' v =>
    have ha : a ≠ a' := by
      rintro rfl
      exact h v rfl
    rw [Env.seeing_memW]
    exact Env.accept_read_other _ _ _ ha
  | memR | pulse | rdP | rdS | weSet | weClr => rw [Env.seeing_mem (by simp)]

theorem Env.FollowsTo.read_unwritten {a : Nat} (hevs : ∀ v, .memW a v ∉ evs) (h : Env.FollowsTo c e evs e') :
    Memory.read e'.mem a = Memory.read e.mem a :=
  Env.Reaches.keeps (P := fun ev => ∀ v, ev ≠ .memW a v) (I := fun x => Memory.read x.mem a = Memory.read e.mem a)
    (fun _ _ hev hx => (Env.seeing_read_other hev).trans hx) ⟨evs, fun _ hev v hv => hevs v (hv ▸ hev), h⟩ rfl

theorem Env.seeing_read_none_any (hd : c.plat.destAccepts = .any) {a : Nat} (h : Memory.read e.mem a = none) (ev : Event) :
    Memory.read (e.seeing c ev).mem a = none := by
  by_cases hev : ∃ v, ev = .memW a v
  · obtain ⟨v, rfl⟩ := hev
    rw [Env.seeing_memW_any hd]
    exact Memory.read_forget_same _ a
  · rw [Env.seeing_read_other (not_exists.1 hev), h]

/-- A written byte is forgotten, and no later event makes it known. -/
theorem Env.FollowsTo.read_written_any (hd : c.plat.destAccepts = .any) {a : Nat} {v : Byte} (hv : .memW a v ∈ evs)
    (h : Env.FollowsTo c e evs e') : Memory.read e'.mem a = none := by
  obtain ⟨pre, post, rfl⟩ := List.append_of_mem hv
  obtain ⟨m, -, -, hpost⟩ := Env.followsTo_append.1 h
  refine Env.Reaches.keeps (P := fun _ => True) (I := fun x => Memory.read x.mem a = none)
    (fun _ ev _ hx => Env.seeing_read_none_any hd hx ev) ⟨post, fun _ _ => trivial, hpost⟩ ?_
  rw [Env.seeing_memW_any hd]
  exact Memory.read_forget_same _ a

theorem tally_memR_cons (ev : Event) (evs : List Event) : (tally (ev :: evs)).memR = (tally [ev]).memR + (tally evs).memR := by
  cases ev <;> simp [tally, Nat.add_comm]

theorem Env.known_any (hd : c.plat.destAccepts = .any) (a : Nat) : e.known c a = none := by
  rw [Env.known, hd]

/-- Every memory read uses up one chosen draw, and nothing else does (log 3, log 6). -/
theorem Env.seeing_nextM_any (hd : c.plat.destAccepts = .any) (ev : Event) :
    (e.seeing c ev).nextM = e.nextM.drop (tally [ev]).memR := by
  cases ev with
  | memW a v => rw [Env.seeing_memW]; rfl
  | memR a v => simp [Env.seeing, Env.known_any hd, tally]
  | pulse | rdP | rdS | weSet | weClr => rfl

theorem Env.FollowsTo.nextM_any (hd : c.plat.destAccepts = .any) (h : Env.FollowsTo c e evs e') :
    e'.nextM = e.nextM.drop (tally evs).memR := by
  induction evs generalizing e with
  | nil => cases h; rfl
  | cons ev evs ih => rw [ih h.2, Env.seeing_nextM_any hd, List.drop_drop, ← tally_memR_cons]

theorem Env.FollowsTo.read_any (hd : c.plat.destAccepts = .any) {pre post : List Event} {a : Nat} {v : Byte}
    (h : Env.FollowsTo c e (pre ++ .memR a v :: post) e') :
    v = (e.nextM[(tally pre).memR]?).getD (Config.memoryDraw a (e.trace ++ pre)) := by
  obtain ⟨m, hpre, -, hv⟩ := h.read
  rw [hv, Env.known_any hd, Option.getD_none, hpre.nextM_any hd, hpre.trace, List.head?_drop]

end

/-- The flip-flop at the attempt, which is the one after the start phase: it is the one after the command unless that completed the
transfer, and the one before it unless that started one (log 7). -/
theorem latch_at_attempt {s : State} (hs : s.regs.index.toNat < s.cfg.lit.nBlocks) :
    ((transferStep s).regs.last ≠ .complete → (pollAndStart s).env.latch = (transferStep s).env.latch) ∧
      ((transferStep s).regs.started = false → (pollAndStart s).env.latch = s.env.latch) := by
  obtain ⟨hstarted, hlatch⟩ := transferStep_latch hs
  refine ⟨fun hlast => ?_, fun hst => ?_⟩
  · obtain ⟨-, hkeeps, -⟩ | ⟨hcomplete, -⟩ := hlatch
    · exact hkeeps.symm
    · exact absurd hcomplete hlast
  · obtain ⟨-, hnone, -⟩ := pollAndStart_draws s
    exact hnone (by rw [← hstarted, hst]; rfl)

/-- Settles O43. With `store-if-latched` the writes all see the flip-flop of the attempt, and a read sees the memory of the end, as no
write comes after it; the clauses of `any` hold of every run of events. -/
theorem memoryFollowsDestAccepts : Obligations.MemoryFollowsDestAccepts := by
  intro s t hexec
  obtain ⟨hindex, rfl⟩ := exec_step_next hexec
  obtain ⟨hafter, hbefore⟩ := latch_at_attempt hindex
  obtain ⟨start, hstart, hfstart⟩ := pollAndStart_reaches_noMemory s
  obtain ⟨m, ⟨writes, hwrites, hfwrites⟩, ⟨reads, hreads, hfreads⟩⟩ := transferStep_writesThenReads s
  have hall : Env.FollowsTo s.cfg s.env (start ++ (writes ++ reads)) (transferStep s).env :=
    Env.followsTo_append.2 ⟨_, hfstart, Env.followsTo_append.2 ⟨m, hfwrites, hfreads⟩⟩
  have hstartMem : (pollAndStart s).env.mem = s.env.mem :=
    hfstart.mem_of_noWrite fun ev hev => noWrite_of_noMemory (hstart ev hev)
  have hreadsMem : (transferStep s).env.mem = m.mem := hfreads.mem_of_noWrite hreads
  refine ⟨_, (pollAndStart s).env.latch, hall.trace, hafter, hbefore, fun hd => ⟨fun hl => ?_, fun hl => ?_, ?_⟩,
    fun hd => ⟨fun a ⟨v, hv⟩ => hall.read_written_any hd hv, fun a ha => hall.read_unwritten ha, ?_⟩⟩
  · rw [storeEvents_append, storeEvents_append, storeEvents_of_all_noWrite hreads,
      storeEvents_of_all_noWrite fun ev hev => noWrite_of_noMemory (hstart ev hev), hreadsMem,
      hfwrites.mem_of_latched hd hwrites hl, hstartMem]
  · rw [hreadsMem, hfwrites.mem_of_unlatched hd hwrites hl, hstartMem]
  · intro a v b hmem hb
    have hin : .memR a v ∈ reads := by
      rcases List.mem_append.1 hmem with hev | hev
      · exact absurd (hstart _ hev) (by simp [isMemoryEvent])
      rcases List.mem_append.1 hev with hev | hev
      · obtain ⟨-, -, hnoRead⟩ := hwrites _ hev
        exact absurd rfl (hnoRead a v)
      · exact hev
    obtain ⟨pre, post, rfl⟩ := List.append_of_mem hin
    obtain ⟨x, hpre, -, hknown⟩ := hfreads.read_known (by simp [hd])
    rw [hreadsMem, ← hpre.mem_of_noWrite fun ev hev => hreads ev (by simp [hev])] at hb
    exact hknown b hb
  · rintro pre post a v heq
    rw [heq] at hall
    exact hall.read_any hd

end Sys2Proof.Machine
end

section
/-! Where memory events come from, host accesses, and the blocks of the destination window (20_memory.md R50 to R52, R55). -/

namespace Sys2Proof.Machine

theorem decodeOp_step {op arg : Byte} (h : decodeOp op arg = .ok .step) : op = 0x06 ∧ arg = 0x00 := by
  unfold decodeOp at h
  split at h
  case h_7 hop =>
    obtain ⟨harg, -⟩ := decodeForm_ok.1 h
    exact ⟨BitVec.eq_of_toNat_eq hop, by simpa [argMatches] using harg⟩
  case h_9 => cases h
  all_goals
    obtain ⟨-, hrow⟩ := decodeForm_ok.1 h
    cases hrow

/-- The one host write that is `step` is that of the word 0x0006 to `CMD` (30_encoding.md R72). -/
theorem decodeWrite_step {off : Offset} {v : Word} (h : decodeWrite off v = .ok .step) : off = 0x00 ∧ v = 0x0006 := by
  obtain rfl | rfl := offset_of_decodeWrite_ok h
  · rw [decodeWrite_cmd] at h
    obtain ⟨hop, harg⟩ := decodeOp_step h
    rw [← commandWord_fields v, hop, harg]
    exact ⟨rfl, rfl⟩
  · rw [decodeWrite_crc] at h
    cases h

theorem raiseCmdError_env (c : CmdError) (s : State) : (raiseCmdError c s).env = s.env := by
  obtain ⟨-, h⟩ | ⟨-, -, h⟩ := raiseCmdError_cases c s
  · rw [h]
    rfl
  · rw [h]

theorem readWindow_env (off : Offset) (width : Nat) (s : State) : (readWindow off width s).env = s.env := by
  unfold readWindow
  dsimp only
  split
  · rfl
  · exact raiseCmdError_env .badAccess s

/-- A step that runs no instruction adds no event. -/
theorem step_trace_cases {s t : State} (h : step s = .next t) :
    t.env.trace = s.env.trace ∨
      ∃ off v rest i, s.host = .access (.write off 16 v) :: rest ∧ decodeWrite off v = .ok i ∧
        exec i (s.withHost rest) = .next t := by
  obtain ⟨-, rfl⟩ | ⟨-, -, -, -, rfl⟩ | ⟨off, width, rest, -, rfl⟩ | ⟨-, -, -, rest, c, -, rfl⟩ | hexec :=
    step_next_cases h
  · exact .inl rfl
  · exact .inl rfl
  · rw [readWindow_env]
    exact .inl rfl
  · rw [raiseCmdError_env]
    exact .inl rfl
  · exact .inr hexec

/-- Settles O55: only an instruction adds events, those of `step` lie in the window, and those of any other are of the link lines. -/
theorem memoryEventsStayInWindow : Obligations.MemoryEventsStayInWindow := by
  intro s t hstep
  obtain htrace | ⟨off, v, rest, i, hhost, hdecode, hexec⟩ := step_trace_cases hstep
  · exact ⟨[], by simp [htrace], by simp, by simp⟩
  · by_cases hi : i = .step
    · subst hi
      obtain ⟨rfl, rfl⟩ := decodeWrite_step hdecode
      obtain ⟨evs, hevs, htrace⟩ := (exec_reaches hexec).trace
      exact ⟨evs, htrace, hevs, fun _ => ⟨rest, hhost⟩⟩
    · obtain ⟨evs, hevs, htrace⟩ := (exec_reaches_link hi hexec).trace
      refine ⟨evs, htrace, fun ev hev => (hevs ev hev).inWindow s.cfg, fun ⟨ev, hev, hmem⟩ => ?_⟩
      obtain ⟨-, -, hnone⟩ := hevs ev hev
      simp [hnone] at hmem

/-- Settles O48: the test on `INDEX` is the first thing `step` does, and its other branch has a next state. -/
theorem stepRefusedOutsideIndexRange : Obligations.StepRefusedOutsideIndexRange := by
  intro s
  change execStep s = .refused .indexOutOfRange ↔ _
  unfold execStep
  split
  next hlt => simpa using hlt
  next hge => simpa using Nat.le_of_not_lt hge

/-! The blocks (R51, R52). -/

/-- The destination window begins at a multiple of 64: a bank size is a power of two of at least 64 (00_scope.md R8). -/
theorem destBase_mod_64 (c : Config) : c.plat.destBase % 64 = 0 := by
  obtain ⟨hmin, hpow, -⟩ := c.fits
  have hlog : 6 ≤ c.plat.bankSize.log2 := (Nat.le_log2 (by omega)).2 hmin
  have hdvd : 2 ^ 6 ∣ c.plat.bankSize := hpow ▸ pow_dvd_pow 2 hlog
  exact Nat.mod_eq_zero_of_dvd (Dvd.dvd.mul_left hdvd c.plat.baseBank)

section
variable {c : Config} (h : c.lit = Literals.document)
include h

theorem address_document (i : Nat) : address c i = c.plat.destBase + 64 * i := by
  rw [address_eq, h]
  rfl

theorem address_mod_64 (i : Nat) : address c i % 64 = 0 := by
  rw [address_document h, Nat.add_mul_mod_self_left, destBase_mod_64]

theorem inDestination_document (a : Nat) :
    InDestination c a ↔ c.plat.destBase ≤ a ∧ a < c.plat.destBase + 64 * 8192 := by
  rw [InDestination, h]
  rfl

/-- The block of an address of the window is the quotient of its distance from `DEST_BASE` by 64. -/
theorem inDestination_iff_unique_block (a : Nat) :
    InDestination c a ↔ ∃ i, (i < 8192 ∧ address c i ≤ a ∧ a ≤ address c i + 63) ∧
      ∀ j, j < 8192 → address c j ≤ a → a ≤ address c j + 63 → j = i := by
  simp only [address_document h, inDestination_document h]
  constructor
  · intro ha
    exact ⟨(a - c.plat.destBase) / 64, by omega, by omega⟩
  · rintro ⟨i, hi, -⟩
    omega

end

/-- Settles O49. The bank composition is the definition of `address`; the rest is arithmetic on `DEST_BASE + 64 * i`. -/
theorem blocksTileTheWindow : Obligations.BlocksTileTheWindow := by
  intro c h
  refine ⟨fun i _ => ⟨by rw [address, h]; rfl, address_document h i⟩, fun i _ => ?_, fun i j _ _ heq => ?_,
    inDestination_iff_unique_block h⟩
  · rw [address_document h, address_document h]
    omega
  · rw [address_document h, address_document h] at heq
    omega

/-! Host accesses (R55). -/

/-- Every accepted offset has a register. -/
theorem registerAt_of_accepted {off : Offset} {width : Nat} (h : accessAccepted off width = true) :
    ∃ r, registerAt off = some r := by
  have hall : ∀ off : Offset, accessAccepted off 16 = true → (registerAt off).isSome = true := by decide
  obtain ⟨rfl, -⟩ := (accessAccepted_iff off width).1 h
  exact Option.isSome_iff_exists.1 (hall off h)

theorem readWindow_refused {off : Offset} {width : Nat} (h : accessAccepted off width = false) (s : State) :
    readWindow off width s = (raiseCmdError .badAccess s).withReply (some 0) := by
  simp [readWindow, readValue, h]

theorem readWindow_accepted {off : Offset} {width : Nat} {r : RegName} (h : accessAccepted off width = true)
    (hreg : registerAt off = some r) (s : State) : readWindow off width s = s.withReply (some (s.readRegister r)) := by
  simp [readWindow, readValue, h, hreg]

/-- An accepted write elsewhere than at `CMD` or `CRC` is to a register the host cannot write. -/
theorem decodeWrite_readOnly {off : Offset} {width : Nat} (h : accessAccepted off width = true) (hcmd : off ≠ 0x00)
    (hcrc : off ≠ 0x04) (v : Word) : decodeWrite off v = .error .readOnly := by
  obtain ⟨-, heven, hmapped⟩ := (accessAccepted_iff off width).1 h
  rw [decodeWrite, (Offset.even_iff off).2 heven, if_neg (by decide), if_neg (by omega), if_neg hcmd, if_neg hcrc]

/-- A write to `CMD` that decodes to no instruction records error 2 (30_encoding.md R73). -/
theorem writeWindow_cmd (v : Word) (s : State) :
    writeWindow 0x00 v s = match decodeCommand v with
      | .ok i => exec i s
      | .error _ => .next (raiseCmdError .badArg s) := by
  rw [writeWindow, decodeWrite_cmd]
  cases hd : decodeCommand v with
  | ok i => rfl
  | error r =>
    obtain rfl := decodeCommand_reject hd
    rfl

/-- Settles O9: the access check, then the read or the write by its offset; the blocks are aligned as the bank size is. -/
theorem hostAccessRule : Obligations.HostAccessRule := by
  refine ⟨accessAccepted_iff, fun s rest off width hhost => ⟨fun hrefused => ?_, fun haccepted => ?_⟩,
    fun c i h => address_mod_64 h i, fun s rest off width v hhost => ?_⟩
  · rw [step_head hhost, ← readWindow_refused hrefused]
    rfl
  · obtain ⟨r, hreg⟩ := registerAt_of_accepted haccepted
    refine ⟨r, hreg, ?_⟩
    rw [step_head hhost]
    change Host.Outcome.next (readWindow off width (s.withHost rest)) = _
    rw [readWindow_accepted haccepted hreg]
    cases r <;> rfl
  · rw [step_write hhost]
    refine ⟨fun hrefused => ?_, fun haccepted hoff => ?_, fun haccepted hcmd hcrc => ?_, fun haccepted hoff => ?_⟩
    · rw [if_neg (by simp [hrefused])]
    · rw [if_pos haccepted, hoff, writeWindow_ok (decodeWrite_crc v)]
      rfl
    · rw [if_pos haccepted, writeWindow_error (decodeWrite_readOnly haccepted hcmd hcrc v)]
      rfl
    · rw [if_pos haccepted, hoff]
      exact writeWindow_cmd v (s.withHost rest)

end Sys2Proof.Machine
end

section
/-! Encoding: the opcode map as a relation (30_encoding.md R72), which the decoder accepts and the encoder inverts. -/

namespace Sys2Proof.Machine

@[simp] theorem countField_countArg : ∀ n : BitVec 5, countField (countArg n) = n := by decide

@[simp] theorem countZeroField_countArg : ∀ n : BitVec 5, countZeroField (countArg n) = 0 := by decide

theorem argMatches_none_iff {arg : Byte} : argMatches .none arg = true ↔ arg = 0 := by simp [argMatches]

theorem argMatches_count_iff {arg : Byte} : argMatches .count arg = true ↔ ∃ n, arg = countArg n := by
  simp only [argMatches, beq_iff_eq]
  constructor
  · intro h
    exact ⟨countField arg, (countArg_countField arg h).symm⟩
  · rintro ⟨n, rfl⟩
    exact countZeroField_countArg n

theorem countLegal_iff (n : BitVec 5) : countLegal n = true ↔ 1 ≤ (countArg n).toNat ∧ (countArg n).toNat ≤ 16 := by
  have hvalue : (countArg n).toNat = n.toNat := BitVec.toNat_setWidth_of_le (by decide)
  simp [countLegal, hvalue]

/-- An operand byte of 1 to 16 has `ARG[7:5]` zero, so it is the `ARG` of a legal count (R71). -/
theorem arg_count_iff {arg : Byte} :
    (1 ≤ arg.toNat ∧ arg.toNat ≤ 16) ↔ ∃ n, arg = countArg n ∧ countLegal n = true := by
  constructor
  · intro h
    have harg : arg = countArg (arg.setWidth 5) := by
      unfold countArg
      bv_omega
    exact ⟨arg.setWidth 5, harg, (countLegal_iff _).2 (harg ▸ h)⟩
  · rintro ⟨n, rfl, hn⟩
    exact (countLegal_iff n).1 hn

/-- The opcode map (R72, R74): the instruction that an opcode and an `ARG` of its form are. -/
inductive OpcodeRow : Byte → Byte → Instr → Prop
  | nop : OpcodeRow 0x00 0x00 .nop
  | crcInit : OpcodeRow 0x01 0x00 .crcInit
  | crcByte (b : Byte) : OpcodeRow 0x02 b (.crcByte b)
  | pulse : OpcodeRow 0x03 0x00 .pulse
  | readp (n : BitVec 5) : OpcodeRow 0x04 (countArg n) (.readp n)
  | reads (n : BitVec 5) : OpcodeRow 0x05 (countArg n) (.reads n)
  | step : OpcodeRow 0x06 0x00 .step
  | clrerr : OpcodeRow 0x07 0x00 .clrerr
  | reserved {op : Byte} (arg : Byte) (h : 8 ≤ op.toNat) : OpcodeRow op arg (.reserved op arg)

section
variable {k op arg : Byte} {i j : Instr}

theorem OpcodeRow.of_form_none (row : OpcodeRow k 0x00 i) (hop : op.toNat = k.toNat) (h : decodeForm .none arg i = .ok j) :
    OpcodeRow op arg j := by
  obtain ⟨harg, rfl⟩ := decodeForm_ok.1 h
  obtain rfl := argMatches_none_iff.1 harg
  exact BitVec.eq_of_toNat_eq hop ▸ row

theorem OpcodeRow.of_form_count {f : BitVec 5 → Instr} (row : ∀ n, OpcodeRow k (countArg n) (f n)) (hop : op.toNat = k.toNat)
    (h : decodeForm .count arg (f (countField arg)) = .ok j) : OpcodeRow op arg j := by
  obtain ⟨harg, rfl⟩ := decodeForm_ok.1 h
  obtain ⟨n, rfl⟩ := argMatches_count_iff.1 harg
  rw [countField_countArg]
  exact BitVec.eq_of_toNat_eq hop ▸ row n

theorem decodeForm_countArg (f : BitVec 5 → Instr) (n : BitVec 5) :
    decodeForm .count (countArg n) (f (countField (countArg n))) = .ok (f n) :=
  decodeForm_ok.2 ⟨argMatches_count_iff.2 ⟨n, rfl⟩, by rw [countField_countArg]⟩

theorem decodeOp_reserved (h : 8 ≤ op.toNat) (arg : Byte) : decodeOp op arg = .ok (.reserved op arg) := by
  unfold decodeOp
  split
  case h_9 => rfl
  all_goals omega

/-- The decoder accepts exactly the rows of the opcode map. -/
theorem decodeOp_ok_iff : decodeOp op arg = .ok i ↔ OpcodeRow op arg i := by
  constructor
  · intro h
    unfold decodeOp at h
    split at h
    case h_1 hop => exact OpcodeRow.nop.of_form_none hop h
    case h_2 hop => exact OpcodeRow.crcInit.of_form_none hop h
    case h_3 hop =>
      cases h
      exact BitVec.eq_of_toNat_eq (y := 0x02) hop ▸ .crcByte arg
    case h_4 hop => exact OpcodeRow.pulse.of_form_none hop h
    case h_5 hop => exact .of_form_count .readp hop h
    case h_6 hop => exact .of_form_count .reads hop h
    case h_7 hop => exact OpcodeRow.step.of_form_none hop h
    case h_8 hop => exact OpcodeRow.clrerr.of_form_none hop h
    case h_9 =>
      cases h
      have hop : 8 ≤ op.toNat := by
        by_contra hlt
        interval_cases op.toNat <;> contradiction
      exact .reserved arg hop
  · intro row
    cases row with
    | nop | crcInit | crcByte | pulse | step | clrerr => rfl
    | readp n => exact decodeForm_countArg .readp n
    | reads n => exact decodeForm_countArg .reads n
    | reserved arg h => exact decodeOp_reserved h arg

/-- A row of the opcode map encodes to the command word of its fields (R70). -/
theorem OpcodeRow.encode_eq (row : OpcodeRow op arg i) : encode i = (0x00, commandWord arg op) := by
  cases row <;> rfl

theorem OpcodeRow.reserved_le {op' arg' : Byte} (row : OpcodeRow op arg (.reserved op' arg')) : 8 ≤ op.toNat := by
  cases row with
  | reserved _ h => exact h

end

theorem decodeCommand_ok_iff {w : Word} {i : Instr} : decodeCommand w = .ok i ↔ OpcodeRow (opField w) (argField w) i :=
  decodeOp_ok_iff

theorem decodeCommand_commandWord {op arg : Byte} {i : Instr} :
    decodeCommand (commandWord arg op) = .ok i ↔ OpcodeRow op arg i := by
  rw [decodeCommand_ok_iff, opField_commandWord, argField_commandWord]

/-- Every well-formed instruction but the seed write is a row of the opcode map. -/
theorem exists_opcodeRow_of_wellFormed {i : Instr} (h : i.wellFormed = true) :
    (∃ v, i = .wrCrc v) ∨ ∃ op arg, OpcodeRow op arg i := by
  cases i with
  | wrCrc v => exact .inl ⟨v, rfl⟩
  | nop => exact .inr ⟨_, _, .nop⟩
  | crcInit => exact .inr ⟨_, _, .crcInit⟩
  | crcByte b => exact .inr ⟨_, _, .crcByte b⟩
  | pulse => exact .inr ⟨_, _, .pulse⟩
  | readp n => exact .inr ⟨_, _, .readp n⟩
  | reads n => exact .inr ⟨_, _, .reads n⟩
  | step => exact .inr ⟨_, _, .step⟩
  | clrerr => exact .inr ⟨_, _, .clrerr⟩
  | reserved op arg => exact .inr ⟨_, _, .reserved arg (by simpa [Instr.wellFormed] using h)⟩

/-- Settles O1: the seed write is at `CRC`; every other instruction is a row of the opcode map, which the decoder accepts. -/
theorem decodeOfEncode : Obligations.DecodeOfEncode := by
  intro i hwf
  obtain ⟨v, rfl⟩ | ⟨op, arg, row⟩ := exists_opcodeRow_of_wellFormed hwf
  · exact decodeWrite_crc v
  · rw [row.encode_eq, decodeWrite_cmd]
    exact decodeCommand_commandWord.2 row

/-- Settles O2: a write that decodes is at `CRC`, or at `CMD` with the fields of the row it is. -/
theorem encodeOfDecode : Obligations.EncodeOfDecode := by
  intro off v i h
  obtain rfl | rfl := offset_of_decodeWrite_ok h
  · rw [decodeWrite_cmd] at h
    rw [(decodeCommand_ok_iff.1 h).encode_eq, commandWord_fields]
  · rw [decodeWrite_crc] at h
    cases h
    rfl

/-- Settles O3: the words of R76 are made from the rows of the opcode map, and the last write is at `CRC`. -/
theorem decodesSpecWords : Obligations.DecodesSpecWords :=
  ⟨decodeCommand_ok_iff.2 .nop, decodeCommand_ok_iff.2 (.crcByte 0xFF), decodeCommand_ok_iff.2 (.readp 16),
    decodeCommand_ok_iff.2 (.reads 8), decodeCommand_ok_iff.2 .step, decodeCommand_ok_iff.2 (.reserved 0x01 (by decide)),
    decodeWrite_crc 0xBEEF⟩

/-! The classes of command words (R74). -/

/-- The executable words, by their fields, are the rows with legal operands below the reserved opcodes. -/
theorem executableWord_iff (w : Word) : ExecutableWord w ↔
    ∃ i : Instr, decodeCommand w = .ok i ∧ i.wellFormed = true ∧ ∀ op arg, i ≠ .reserved op arg := by
  simp only [decodeCommand_ok_iff]
  constructor
  · rintro (rfl | rfl | rfl | rfl | rfl | hop | ⟨hop | hop, hcount⟩)
    · exact ⟨_, .nop, rfl, nofun⟩
    · exact ⟨_, .crcInit, rfl, nofun⟩
    · exact ⟨_, .pulse, rfl, nofun⟩
    · exact ⟨_, .step, rfl, nofun⟩
    · exact ⟨_, .clrerr, rfl, nofun⟩
    · exact ⟨.crcByte (argField w), hop ▸ .crcByte _, rfl, nofun⟩
    · obtain ⟨n, harg, hn⟩ := arg_count_iff.1 hcount
      exact ⟨.readp n, hop ▸ harg ▸ .readp n, hn, nofun⟩
    · obtain ⟨n, harg, hn⟩ := arg_count_iff.1 hcount
      exact ⟨.reads n, hop ▸ harg ▸ .reads n, hn, nofun⟩
  · rintro ⟨i, row, hwf, hres⟩
    have hw := commandWord_fields w
    unfold ExecutableWord
    generalize opField w = op, argField w = arg at row hw ⊢
    cases row with
    | nop => exact .inl hw.symm
    | crcInit => exact .inr (.inl hw.symm)
    | pulse => exact .inr (.inr (.inl hw.symm))
    | step => exact .inr (.inr (.inr (.inl hw.symm)))
    | clrerr => exact .inr (.inr (.inr (.inr (.inl hw.symm))))
    | crcByte b => simp
    | readp n => simp [(countLegal_iff n).1 hwf]
    | reads n => simp [(countLegal_iff n).1 hwf]
    | reserved arg h => exact absurd rfl (hres _ _)

/-- An instruction with an illegal operand and no reserved opcode is a counted read, which its operand check refuses (R73). -/
theorem exec_of_not_wellFormed {i : Instr} (hwf : i.wellFormed ≠ true) (hres : ∀ op arg, i ≠ .reserved op arg) (s : State) :
    exec i s = .next (raiseCmdError .badArg s) := by
  have hrefused (ep : Endpoint) {n : BitVec 5} (hn : countLegal n ≠ true) : countedRead ep n s = raiseCmdError .badArg s :=
    if_neg hn
  cases i with
  | readp n => exact congrArg Host.Outcome.next (hrefused .primary hwf)
  | reads n => exact congrArg Host.Outcome.next (hrefused .secondary hwf)
  | reserved op arg => exact absurd rfl (hres op arg)
  | nop | crcInit | crcByte | pulse | step | clrerr | wrCrc => exact absurd rfl hwf

/-- A pending command word that is no row records error 2. -/
theorem step_of_decodeCommand_error {s : State} {w : Word} {rest : List HostInput} {r : Reject} (h : CommandPending s w rest)
    (hd : decodeCommand w = .error r) : step s = .next (raiseCmdError .badArg (s.withHost rest)) := by
  obtain rfl := decodeCommand_reject hd
  rw [step_write h, if_pos (by decide)]
  exact writeWindow_error ((decodeWrite_cmd w).trans hd) _

/-- A pending command word that is a row runs its instruction. -/
theorem step_of_opcodeRow {s : State} {w : Word} {rest : List HostInput} {i : Instr} (h : CommandPending s w rest)
    (row : OpcodeRow (opField w) (argField w) i) : step s = exec i (s.withHost rest) :=
  stepRunsDecodedInstruction s 0x00 w rest i h ((decodeWrite_cmd w).trans (decodeCommand_ok_iff.2 row))

/-- Settles O4: a word of a reserved opcode is a reserved row; any other word that is not executable is no row, which the decoder
refuses, or a row with an illegal count, which its operand check refuses. -/
theorem commandWordsPartition : Obligations.CommandWordsPartition := by
  refine ⟨executableWord_iff, fun s w rest hpending hop => ?_, fun s w rest hpending hop hexec => ?_⟩
  · exact step_of_opcodeRow hpending (.reserved _ hop)
  · cases hd : decodeCommand w with
    | error r => exact step_of_decodeCommand_error hpending hd
    | ok i =>
      have row := decodeCommand_ok_iff.1 hd
      have hres : ∀ op arg, i ≠ .reserved op arg := by
        rintro op arg rfl
        exact absurd row.reserved_le (Nat.not_le_of_lt hop)
      have hwf : i.wellFormed ≠ true := fun hwf => hexec ((executableWord_iff w).2 ⟨i, hd, hwf, hres⟩)
      rw [step_of_opcodeRow hpending row]
      exact exec_of_not_wellFormed hwf hres _

end Sys2Proof.Machine
end

section
/-! The error record blocks nothing (30_encoding.md R73, 60_exceptions.md R174): each operation of the block, from a state with
another error record, does the same but for the error record. -/

namespace Sys2Proof.Machine

@[simp] theorem State.withErrc_withErrc (s : State) (e e' : Option CmdError) : (s.withErrc e).withErrc e' = s.withErrc e' := rfl

/-- Recording a command error leaves the code that was recorded first (R171). -/
theorem raiseCmdError_eq (c : CmdError) (s : State) : raiseCmdError c s = s.withErrc (some (s.regs.errc.getD c)) := by
  obtain ⟨hnone, h⟩ | ⟨d, hsome, h⟩ := raiseCmdError_cases c s
  · rw [h, hnone]
    rfl
  · rw [h, hsome, Option.getD_some, ← hsome]
    rfl

/-- From a state with another error record the operation has the same result but for the error record. -/
def ErrcBlind (f : State → State) : Prop := ∀ (s : State) (e : Option CmdError), ∃ e', f (s.withErrc e) = (f s).withErrc e'

theorem ErrcBlind.of_commutes {f : State → State} (h : ∀ s e, f (s.withErrc e) = (f s).withErrc e) : ErrcBlind f :=
  fun s e => ⟨e, h s e⟩

theorem raiseCmdError_errcBlind (c : CmdError) : ErrcBlind (raiseCmdError c) := fun s e =>
  ⟨some (e.getD c), by rw [raiseCmdError_eq, raiseCmdError_eq]; rfl⟩

theorem clearCmdError_errcBlind : ErrcBlind clearCmdError := fun _ _ => ⟨none, rfl⟩

/-- The mode check of a link primitive does not read the error record (R73). -/
theorem whenIdle_errcBlind {f : State → State} (hf : ErrcBlind f) : ErrcBlind fun s => whenIdle s (f s) := by
  intro s e
  unfold whenIdle
  cases hmode : s.regs.mode with
  | idle => simpa [hmode] using hf s e
  | transferring => simpa [hmode] using raiseCmdError_errcBlind .linkBusy s e

theorem countedRead_errcBlind (ep : Endpoint) (n : BitVec 5) : ErrcBlind (countedRead ep n) := by
  intro s e
  unfold countedRead
  split
  · exact whenIdle_errcBlind (.of_commutes (f := readIntoData ep n.toNat) fun _ _ => rfl) s e
  · exact raiseCmdError_errcBlind .badArg s e

/-! The phases of `step` neither read nor write the error record. -/

/-- A choice between two states whose test does not see the error record commutes with the error record. -/
theorem ite_withErrc {p q : Prop} [Decidable p] [Decidable q] {s s' t t' : State} {e : Option CmdError} (hpq : p ↔ q)
    (hs : s' = s.withErrc e) (ht : t' = t.withErrc e) : (if p then s' else t') = (if q then s else t).withErrc e := by
  rw [apply_ite (State.withErrc · e), if_congr hpq hs ht]

theorem pollAndStart_withErrc (s : State) (e : Option CmdError) :
    pollAndStart (s.withErrc e) = (pollAndStart s).withErrc e := by
  have hstart (s : State) : startPhase (s.withErrc e) = (startPhase s).withErrc e := ite_withErrc .rfl rfl rfl
  exact hstart (pollPhase (clearResult s))

theorem receiveBlock_withErrc (s : State) (e : Option CmdError) :
    receiveBlock (s.withErrc e) = (receiveBlock s).withErrc e := rfl

theorem judgeBlock_withErrc (s : State) (e : Option CmdError) : judgeBlock (s.withErrc e) = (judgeBlock s).withErrc e :=
  ite_withErrc .rfl rfl (ite_withErrc .rfl rfl rfl)

theorem transferStep_withErrc (s : State) (e : Option CmdError) :
    transferStep (s.withErrc e) = (transferStep s).withErrc e := by
  unfold transferStep
  rw [pollAndStart_withErrc]
  cases hmode : (pollAndStart s).regs.mode with
  | idle => simp [hmode]
  | transferring => simp [hmode, receiveBlock_withErrc, judgeBlock_withErrc]

/-- An instruction other than `step` has a next state from every state, by an operation blind to the error record. -/
theorem exec_errcBlind {i : Instr} (hi : i ≠ .step) : ∃ f, ErrcBlind f ∧ ∀ s, exec i s = .next (f s) := by
  cases i with
  | step => exact absurd rfl hi
  | nop => exact ⟨id, .of_commutes fun _ _ => rfl, fun _ => rfl⟩
  | crcInit => exact ⟨fun s => s.withCrc s.cfg.lit.crcInit, .of_commutes fun _ _ => rfl, fun _ => rfl⟩
  | crcByte b => exact ⟨fun s => s.withCrc (crcUpdate s.cfg.lit s.regs.crc b), .of_commutes fun _ _ => rfl, fun _ => rfl⟩
  | wrCrc v => exact ⟨(State.withCrc · v), .of_commutes fun _ _ => rfl, fun _ => rfl⟩
  | pulse => exact ⟨_, whenIdle_errcBlind (.of_commutes (f := fun s => s.withEnv s.env.pulse) fun _ _ => rfl), fun _ => rfl⟩
  | readp n => exact ⟨_, countedRead_errcBlind .primary n, fun _ => rfl⟩
  | reads n => exact ⟨_, countedRead_errcBlind .secondary n, fun _ => rfl⟩
  | clrerr => exact ⟨_, clearCmdError_errcBlind, fun _ => rfl⟩
  | reserved op arg => exact ⟨_, raiseCmdError_errcBlind .reservedOp, fun _ => rfl⟩

/-- Settles O17: `step` tests `INDEX` alone and commutes with the error record; every other instruction is blind to it. -/
theorem errorsBlockNothing : Obligations.ErrorsBlockNothing := by
  intro i s t e h
  by_cases hi : i = .step
  · subst hi
    obtain ⟨hindex, rfl⟩ := exec_step_next h
    refine ⟨e, ?_⟩
    rw [← transferStep_withErrc]
    exact execStep_of_index_lt (s := s.withErrc e) hindex
  · obtain ⟨f, hf, hexec⟩ := exec_errcBlind hi
    rw [hexec] at h
    cases h
    obtain ⟨e', he'⟩ := hf s e
    exact ⟨e', by rw [hexec, he']⟩

/-- Settles O18: all that a reserved instruction does is to record the error, which does nothing where one is recorded. -/
theorem reservedRecordsError1 : Obligations.ReservedRecordsError1 := by
  intro op arg s
  have hexec : exec (.reserved op arg) s = .next (raiseCmdError .reservedOp s) := rfl
  rw [hexec]
  obtain ⟨hnone, h⟩ | ⟨d, hsome, h⟩ := raiseCmdError_cases .reservedOp s
  · rw [h]
    exact ⟨fun _ => rfl, fun hne => absurd hnone hne⟩
  · rw [h]
    exact ⟨fun hnone => by simp [hsome] at hnone, fun _ => rfl⟩

end Sys2Proof.Machine
end

section
/-! The table-driven update as the bit-serial one (40_checksum.md R90, R91): the shift step is linear for exclusive-or and, for a
polynomial with its top bit set, injective. -/

namespace Sys2Proof.Machine

section
variable {poly : Word}

/-- A shift step adds the polynomial for the bit it shifts out. -/
theorem crcShift_eq (c : Word) : crcShift poly c = (c >>> 1) ^^^ (if c.getLsbD 0 then poly else 0) := by
  unfold crcShift
  split
  · rfl
  · exact BitVec.xor_zero.symm

theorem crcShift_of_even {c : Word} (h : c.getLsbD 0 = false) : crcShift poly c = c >>> 1 := if_neg (by rw [h]; decide)

theorem crcShift_xor (c d : Word) : crcShift poly (c ^^^ d) = crcShift poly c ^^^ crcShift poly d := by
  have hout (a b : Bool) : (if a ^^ b then poly else 0) = (if a then poly else 0) ^^^ (if b then poly else 0) := by
    cases a <;> cases b <;> simp
  rw [crcShift_eq, crcShift_eq, crcShift_eq, BitVec.getLsbD_xor, hout, BitVec.ushiftRight_xor_distrib]
  ac_rfl

theorem repeat_crcShift_xor (n : Nat) (c d : Word) :
    Nat.repeat (crcShift poly) n (c ^^^ d) = Nat.repeat (crcShift poly) n c ^^^ Nat.repeat (crcShift poly) n d := by
  induction n with
  | zero => rfl
  | succ n ih =>
    rw [Nat.repeat, ih, crcShift_xor]
    rfl

/-- As long as zeros are shifted out, the polynomial stays out of the accumulator. -/
theorem repeat_crcShift_of_low_zero {c : Word} (n : Nat) (h : ∀ i, i < n → c.getLsbD i = false) :
    Nat.repeat (crcShift poly) n c = c >>> n := by
  induction n with
  | zero => rfl
  | succ n ih =>
    have hbit : (c >>> n).getLsbD 0 = false := by simpa using h n n.lt_succ_self
    rw [Nat.repeat, ih fun i hi => h i (Nat.lt_succ_of_lt hi), crcShift_of_even hbit, BitVec.shiftRight_add]

/-- The top bit after a shift step tells which bit was shifted out, and the other bits are still there. -/
theorem crcShift_injective (hpoly : poly.getLsbD 15 = true) : Function.Injective (crcShift poly) := by
  have htop (c : Word) : (crcShift poly c).getLsbD 15 = c.getLsbD 0 := by
    rw [crcShift_eq, BitVec.getLsbD_xor]
    cases c.getLsbD 0 with
    | false => simp
    | true => simp [hpoly]
  intro c d h
  have hlow : c.getLsbD 0 = d.getLsbD 0 := by rw [← htop c, h, htop d]
  have hhigh : c >>> 1 = d >>> 1 := by
    rw [crcShift_eq, crcShift_eq, hlow] at h
    exact (BitVec.xor_left_inj _).1 h
  refine BitVec.eq_of_getLsbD_eq fun i _ => ?_
  cases i with
  | zero => exact hlow
  | succ i => simpa [Nat.add_comm] using congrArg (·.getLsbD i) hhigh

theorem repeat_crcShift_injective (hpoly : poly.getLsbD 15 = true) (n : Nat) :
    Function.Injective (Nat.repeat (crcShift poly) n) := by
  induction n with
  | zero => exact fun _ _ h => h
  | succ n ih => exact (crcShift_injective hpoly).comp ih

end

theorem xor_byte_ushiftRight (x : Word) (b : Byte) : (x ^^^ b.setWidth 16) >>> 8 = x >>> 8 := by
  refine BitVec.eq_of_getLsbD_eq fun i _ => ?_
  simp

/-- Eight shift steps of a word whose low byte is cleared only move its high byte down. -/
theorem repeat_crcShift_clear_low_byte (poly x : Word) :
    Nat.repeat (crcShift poly) 8 (x ^^^ (x.setWidth 8).setWidth 16) = x >>> 8 := by
  have hlow : ∀ i, i < 8 → (x ^^^ (x.setWidth 8).setWidth 16).getLsbD i = false := by
    intro i hi
    simp [hi, show i < 16 by omega]
  rw [repeat_crcShift_of_low_zero 8 hlow, xor_byte_ushiftRight]

/-- The low half of the accumulator with the byte in it makes the table's entry, and the high half only moves down. -/
theorem crcUpdate_eq_repeat_crcShift {l : Literals} (hs : l.Sound) (ht : l.table = none) (crc : Word) (b : Byte) :
    crcUpdate l crc b = Nat.repeat (crcShift l.crcPoly) 8 (crc ^^^ b.setWidth 16) := by
  rw [crcUpdate, tableEntry_of_no_table hs ht, crcGenerate, BitVec.ofNat_toNat, ← xor_byte_ushiftRight crc b]
  generalize crc ^^^ b.setWidth 16 = x
  have hsplit : x = (x ^^^ (x.setWidth 8).setWidth 16) ^^^ (x.setWidth 8).setWidth 16 := by
    rw [BitVec.xor_assoc, BitVec.xor_self, BitVec.xor_zero]
  conv_rhs => rw [hsplit, repeat_crcShift_xor, repeat_crcShift_clear_low_byte]

/-- Settles O28: the document's table is generated and its constants are sound. -/
theorem tableUpdateIsBitSerial : Obligations.TableUpdateIsBitSerial :=
  crcUpdate_eq_repeat_crcShift Literals.document_sound rfl

/-! One differing byte (R98): each update is injective in the accumulator and in the byte. -/

theorem crcUpdate_document_injective (b : Byte) : Function.Injective (crcUpdate Literals.document · b) := by
  intro c d h
  simp only [tableUpdateIsBitSerial _ b] at h
  exact (BitVec.xor_left_inj _).1 (repeat_crcShift_injective (by decide) 8 h)

theorem crcUpdate_document_injective_byte (crc : Word) : Function.Injective (crcUpdate Literals.document crc) := by
  intro x y h
  rw [tableUpdateIsBitSerial, tableUpdateIsBitSerial] at h
  have hwide : x.setWidth 16 = y.setWidth 16 := (BitVec.xor_right_inj _).1 (repeat_crcShift_injective (by decide) 8 h)
  simpa using congrArg (BitVec.setWidth 8) hwide

theorem foldl_crcUpdate_document_injective (bytes : List Byte) :
    Function.Injective (bytes.foldl (crcUpdate Literals.document)) := by
  induction bytes with
  | nil => exact fun _ _ h => h
  | cons b bytes ih => exact ih.comp (crcUpdate_document_injective b)

theorem checksum_append_cons (l : Literals) (pre post : List Byte) (x : Byte) :
    checksum l (pre ++ x :: post) = post.foldl (crcUpdate l) (crcUpdate l (checksum l pre) x) := List.foldl_append

/-- Settles O29: the update with the differing byte separates the accumulators, and no later update joins them. -/
theorem oneCorruptByteChangesChecksum : Obligations.OneCorruptByteChangesChecksum := by
  intro pre post x y hxy h
  rw [checksum_append_cons, checksum_append_cons] at h
  exact hxy (crcUpdate_document_injective_byte _ (foldl_crcUpdate_document_injective post h))

end Sys2Proof.Machine
end

section
/-! The commands of the checksum engine and the seed write (40_checksum.md R92, R94 to R97). -/

namespace Sys2Proof.Machine

theorem exec_crcInit (s : State) : exec .crcInit s = .next (s.withCrc s.cfg.lit.crcInit) := rfl

theorem exec_wrCrc (v : Word) (s : State) : exec (.wrCrc v) s = .next (s.withCrc v) := rfl

@[simp] theorem State.withCrc_withCrc (s : State) (v w : Word) : (s.withCrc v).withCrc w = s.withCrc w := rfl

theorem runInstrs_cons_of_next {i : Instr} {s t : State} (h : exec i s = .next t) (rest : List Instr) :
    runInstrs (i :: rest) s = runInstrs rest t := by rw [runInstrs, h]

/-- The `crc.byte` commands for some bytes make their updates in order and change nothing but `CRC`. -/
theorem runInstrs_crcBytes (bytes : List Byte) (s : State) :
    runInstrs (bytes.map .crcByte) s = .next (s.withCrc (bytes.foldl (crcUpdate s.cfg.lit) s.regs.crc)) := by
  induction bytes generalizing s with
  | nil => rfl
  | cons b bytes ih =>
    rw [List.map_cons, runInstrs_cons_of_next (exec_crcByte b s), ih]
    rfl

/-- The initial value enters the checksum as the first accumulator only (R90). -/
theorem checksum_withInit (l : Literals) (v : Word) (bytes : List Byte) :
    checksum { l with crcInit := v } bytes = bytes.foldl (crcUpdate l) v := rfl

/-- Settles O24: both sequences set the first accumulator and then make the updates of the bytes. -/
theorem crcCommandsComputeChecksum : Obligations.CrcCommandsComputeChecksum := by
  refine fun bytes s => ⟨?_, fun v => ?_⟩
  · rw [runInstrs_cons_of_next (exec_crcInit s), runInstrs_crcBytes]
    rfl
  · rw [runInstrs_cons_of_next (exec_wrCrc v s), runInstrs_crcBytes, checksum_withInit]
    rfl

/-- An opcode whose only row has `ARG` 0 refuses every other `ARG` with error 2 (30_encoding.md R71, R73). -/
theorem argRefused_of_rows {op : Byte} (hrows : ∀ {arg i}, OpcodeRow op arg i → arg = 0) : ArgRefused op := by
  intro s rest arg harg hpending
  cases hd : decodeCommand (commandWord arg op) with
  | ok i => exact absurd (hrows (decodeCommand_commandWord.1 hd)) harg
  | error r => exact step_of_decodeCommand_error hpending hd

theorem argRefused_crcInit : ArgRefused 0x01 := by
  refine argRefused_of_rows fun row => ?_
  cases row with
  | crcInit => rfl
  | reserved arg h => exact absurd h (by decide)

/-- Settles O21: the second `crc.init` writes the value that `CRC` holds. -/
theorem crcInitSetsSeed : Obligations.CrcInitSetsSeed := by
  refine ⟨exec_crcInit, rfl, fun s => ?_, decodeCommand_ok_iff.2 .crcInit, argRefused_crcInit⟩
  rw [runInstrs_cons_of_next (exec_crcInit s), runInstrs_cons_of_next (exec_crcInit s),
    runInstrs_cons_of_next (exec_crcInit _), State.withCrc_withCrc, State.withCrc_cfg]

/-- A byte equal to `CRC[7:0]` clears the low half, so the update is a pure shift (R95). -/
theorem crcUpdate_document_low_byte (crc : Word) : crcUpdate Literals.document crc (crc.setWidth 8) = crc >>> 8 := by
  rw [tableUpdateIsBitSerial, repeat_crcShift_clear_low_byte]

/-- Settles O22: the first two examples of R95 are bytes equal to `CRC[7:0]`, and the third is eight shift steps of 0xC0DE. -/
theorem crcByteUpdates : Obligations.CrcByteUpdates := by
  refine ⟨exec_crcByte, fun b => decodeCommand_commandWord.2 (.crcByte b), crcUpdate_document_low_byte,
    crcUpdate_document_low_byte 0xC0DE, crcUpdate_document_low_byte 0x00C0, ?_⟩
  rw [tableUpdateIsBitSerial]
  decide

theorem accessAccepted_of_width_ne {width : Nat} (h : width ≠ 16) (off : Offset) : ¬accessAccepted off width = true := by
  intro haccepted
  obtain ⟨hwidth, -⟩ := (accessAccepted_iff off width).1 haccepted
  exact h hwidth

/-- Settles O23: a write of another width fails the access check, which comes before the decoder. -/
theorem hostWriteSeedsCrc : Obligations.HostWriteSeedsCrc := by
  refine ⟨exec_wrCrc, decodeWrite_crc, fun s rest width v hwidth hhost => ?_⟩
  rw [step_write hhost, if_neg (accessAccepted_of_width_ne hwidth 0x04)]

/-- Settles O25: with no byte to update for, the initial value is left. -/
theorem checksumOfNothing : Obligations.ChecksumOfNothing := ⟨fun _ => rfl, rfl⟩

end Sys2Proof.Machine
end

section
/-! The commands of the link driver (41_link.md R113 to R115): the mode check, the operand check of a counted read, and what a read
that passes both leaves. -/

namespace Sys2Proof.Machine

theorem exec_pulse (s : State) : exec .pulse s = .next (whenIdle s (s.withEnv s.env.pulse)) := rfl

theorem whenIdle_of_idle {s : State} (h : s.regs.mode = .idle) (run : State) : whenIdle s run = run := by
  rw [whenIdle, h]

theorem whenIdle_of_transferring {s : State} (h : s.regs.mode = .transferring) (run : State) :
    whenIdle s run = raiseCmdError .linkBusy s := by
  rw [whenIdle, h]

theorem argRefused_pulse : ArgRefused 0x03 := by
  refine argRefused_of_rows fun row => ?_
  cases row with
  | pulse => rfl
  | reserved arg h => exact absurd h (by decide)

/-- Settles O30: the mode check decides between one pulse and error 3. -/
theorem pulseEmitsOneTick : Obligations.PulseEmitsOneTick := by
  refine ⟨fun s hidle => ?_, fun s hbusy => ?_, decodeCommand_ok_iff.2 .pulse, argRefused_pulse⟩
  · rw [exec_pulse, whenIdle_of_idle hidle, Env.pulse_eq]
    rfl
  · rw [exec_pulse, whenIdle_of_transferring hbusy]

/-! The counted reads, for either endpoint. -/

theorem countLegal_iff_toNat (n : BitVec 5) : countLegal n = true ↔ 1 ≤ n.toNat ∧ n.toNat ≤ 16 := by simp [countLegal]

/-- A read into `DATA` leaves the answers there in read order, the first at bit 0 (R112), and touches only `DATA`, the trace and the
endpoint's chosen bits. -/
theorem readIntoData_spec (ep : Endpoint) (k : Nat) (s : State) :
    ∃ (bits : List Bool) (d : Word), bits.length = k ∧ LineAnswers s.env ep bits ∧
      (∀ i, i < 16 → d.getLsbD i = (bits[i]?).getD false) ∧
      readIntoData ep k s =
        (s.withData d).withEnv { s.env.useUp k ep with trace := s.env.trace ++ bits.map (readEvent ep) } := by
  obtain ⟨bits, rfl, hans, hread⟩ := s.env.readBits_spec ep k
  refine ⟨bits, wordOfBits bits, rfl, hans, wordOfBits_getLsbD bits, ?_⟩
  rw [readIntoData, hread]
  rfl

theorem countedRead_of_illegal {n : BitVec 5} (hn : ¬(1 ≤ n.toNat ∧ n.toNat ≤ 16)) (ep : Endpoint) (s : State) :
    countedRead ep n s = raiseCmdError .badArg s :=
  if_neg (mt (countLegal_iff_toNat n).1 hn)

theorem countedRead_of_legal {n : BitVec 5} (hn : 1 ≤ n.toNat ∧ n.toNat ≤ 16) (ep : Endpoint) (s : State) :
    countedRead ep n s = whenIdle s (readIntoData ep n.toNat s) :=
  if_pos ((countLegal_iff_toNat n).2 hn)

/-- The outcome of a counted read of either endpoint, which is the outcome of `readp n` and of `reads n` (R114, R115): the operand
check, then the mode check, then the reads. -/
theorem countedRead_outcome (ep : Endpoint) (n : BitVec 5) (s : State) :
    (1 ≤ n.toNat → n.toNat ≤ 16 → s.regs.mode = .idle →
        ∃ (bits : List Bool) (d : Word), bits.length = n.toNat ∧ LineAnswers s.env ep bits ∧
          (∀ i, i < 16 → d.getLsbD i = (bits[i]?).getD false) ∧
          (.next (countedRead ep n s) : Host.Outcome State Fault Refusal) = .next ((s.withData d).withEnv
            { s.env.useUp n.toNat ep with trace := s.env.trace ++ bits.map (readEvent ep) })) ∧
      (1 ≤ n.toNat → n.toNat ≤ 16 → s.regs.mode = .transferring →
        (.next (countedRead ep n s) : Host.Outcome State Fault Refusal) = .next (raiseCmdError .linkBusy s)) ∧
      (¬(1 ≤ n.toNat ∧ n.toNat ≤ 16) →
        (.next (countedRead ep n s) : Host.Outcome State Fault Refusal) = .next (raiseCmdError .badArg s)) := by
  refine ⟨fun hpos hle hidle => ?_, fun hpos hle hbusy => ?_, fun hn => ?_⟩
  · obtain ⟨bits, d, hlen, hans, hd, hread⟩ := readIntoData_spec ep n.toNat s
    refine ⟨bits, d, hlen, hans, hd, ?_⟩
    rw [countedRead_of_legal ⟨hpos, hle⟩, whenIdle_of_idle hidle, hread]
  · rw [countedRead_of_legal ⟨hpos, hle⟩, whenIdle_of_transferring hbusy]
  · rw [countedRead_of_illegal hn]

/-- An opcode whose rows have a legal operand only for an `ARG` of 1 to 16 refuses every other `ARG` with error 2: such a word is
not executable, and its opcode is not reserved (30_encoding.md R71, R73, R74). -/
theorem countRefused_of_rows {op : Byte} (hop : op.toNat < 8)
    (hrows : ∀ {arg i}, OpcodeRow op arg i → i.wellFormed = true → 1 ≤ arg.toNat ∧ arg.toNat ≤ 16) : CountRefused op := by
  intro s rest arg harg hpending
  obtain ⟨-, -, hrefused⟩ := commandWordsPartition
  refine hrefused s _ rest hpending (by rwa [opField_commandWord]) fun hexec => ?_
  obtain ⟨i, hd, hwf, -⟩ := (executableWord_iff _).1 hexec
  exact harg (hrows (decodeCommand_commandWord.1 hd) hwf)

theorem countRefused_readp : CountRefused 0x04 := by
  refine countRefused_of_rows (by decide) fun row hwf => ?_
  cases row with
  | readp n => exact (countLegal_iff n).1 hwf
  | reserved arg h => exact absurd h (by decide)

theorem countRefused_reads : CountRefused 0x05 := by
  refine countRefused_of_rows (by decide) fun row hwf => ?_
  cases row with
  | reads n => exact (countLegal_iff n).1 hwf
  | reserved arg h => exact absurd h (by decide)

/-- Settles O31: the word is a row of the opcode map, and `readp n` is the counted read of the primary endpoint. -/
theorem readpReadsPrimaryBits : Obligations.ReadpReadsPrimaryBits :=
  ⟨fun n => decodeCommand_commandWord.2 (.readp n), countRefused_readp, countedRead_outcome .primary⟩

/-- Settles O32: the word is a row of the opcode map, and `reads n` is the counted read of the secondary endpoint. -/
theorem readsReadsSecondaryBits : Obligations.ReadsReadsSecondaryBits :=
  ⟨fun n => decodeCommand_commandWord.2 (.reads n), countRefused_reads, countedRead_outcome .secondary⟩

end Sys2Proof.Machine
end

section
/-! The outcomes of a `step` command (42_sequencer.md R131): what the poll and start phases leave, whether an attempt follows, and
its verdict. -/

namespace Sys2Proof.Machine

/-- The poll takes the transition from Idle to Transferring (R133). -/
abbrev TakesStart (s : State) : Prop := s.regs.mode = .idle ∧ (pollLine s.cfg s.env).1 = s.cfg.plat.startPattern

/-- The command runs a block attempt (R131, D10). -/
abbrev RunsAttempt (s : State) : Prop := s.regs.mode = .transferring ∨ TakesStart s

/-- The state before the verdict of an attempt. -/
abbrev attempted (s : State) : State := receiveBlock (pollAndStart s)

theorem pollAndStart_eq (s : State) : pollAndStart s =
    if TakesStart s then
      (s.withRegs (startRegs (polledRegs s))).withEnv
        (Env.weSetTimes s.cfg.lit.weAssertCount (pollLine s.cfg s.env).2)
    else (s.withRegs (polledRegs s)).withEnv (pollLine s.cfg s.env).2 := rfl

theorem pollAndStart_of_start {s : State} (h : TakesStart s) : pollAndStart s =
    (s.withRegs (startRegs (polledRegs s))).withEnv
      (Env.weSetTimes s.cfg.lit.weAssertCount (pollLine s.cfg s.env).2) := by
  rw [pollAndStart_eq, if_pos h]

theorem pollAndStart_of_no_start {s : State} (h : ¬TakesStart s) :
    pollAndStart s = (s.withRegs (polledRegs s)).withEnv (pollLine s.cfg s.env).2 := by
  rw [pollAndStart_eq, if_neg h]

theorem idle_of_not_runsAttempt {s : State} (h : ¬RunsAttempt s) : s.regs.mode = .idle := by
  cases hm : s.regs.mode with
  | idle => rfl
  | transferring => exact absurd (.inl hm) h

theorem not_takesStart_of_transferring {s : State} (h : s.regs.mode = .transferring) : ¬TakesStart s := by
  simp [TakesStart, h]

/-! What the phases leave in each register. -/

section
variable (s : State)

theorem pollAndStart_regs :
    (pollAndStart s).regs = if TakesStart s then startRegs (polledRegs s) else polledRegs s := by
  rw [pollAndStart_eq]
  split <;> rfl

@[simp] theorem pollAndStart_host : (pollAndStart s).host = s.host := by
  rw [pollAndStart_eq]
  split <;> rfl

@[simp] theorem pollAndStart_reply : (pollAndStart s).reply = s.reply := by
  rw [pollAndStart_eq]
  split <;> rfl

@[simp] theorem pollAndStart_data : (pollAndStart s).regs.data = s.regs.data := by
  rw [pollAndStart_regs]
  split <;> rfl

@[simp] theorem pollAndStart_errc : (pollAndStart s).regs.errc = s.regs.errc := by
  rw [pollAndStart_regs]
  split <;> rfl

@[simp] theorem pollAndStart_poll : (pollAndStart s).regs.poll = (pollLine s.cfg s.env).1 := by
  rw [pollAndStart_regs]
  split <;> rfl

@[simp] theorem pollAndStart_started : (pollAndStart s).regs.started = decide (TakesStart s) := by
  rw [pollAndStart_regs]
  split
  next h => simp [startRegs, h]
  next h => simp [polledRegs, h]

theorem pollAndStart_mem : (pollAndStart s).env.mem = s.env.mem := by
  obtain ⟨evs, hevs, hf⟩ := pollAndStart_reaches_noMemory s
  exact hf.mem_of_noWrite fun ev hev => noWrite_of_noMemory (hevs ev hev)

variable {s}

theorem pollAndStart_mode (h : RunsAttempt s) : (pollAndStart s).regs.mode = .transferring := by
  rw [pollAndStart_regs]
  split
  · rfl
  next hno => exact h.resolve_right hno

theorem pollAndStart_we_of_transferring (h : s.regs.mode = .transferring) : (pollAndStart s).regs.we = s.regs.we := by
  rw [pollAndStart_of_no_start (not_takesStart_of_transferring h)]
  rfl

theorem pollAndStart_we_of_start (h : TakesStart s) : (pollAndStart s).regs.we = true := by
  rw [pollAndStart_of_start h]
  rfl

end

@[simp] theorem receiveBlock_index (s : State) : (receiveBlock s).regs.index = s.regs.index := rfl

/-! The command as a whole. -/

/-- What a `step` command from `s` can end in: the polled state without an attempt, or one of the three verdicts on the attempt
(R139, R140). -/
inductive StepOutcome (s : State) : State → Prop
  | noAttempt (hno : ¬RunsAttempt s) : StepOutcome s ((s.withRegs (polledRegs s)).withEnv (pollLine s.cfg s.env).2)
  | retry (hrun : RunsAttempt s) (hsum : (attempted s).regs.lcrc ≠ (attempted s).regs.rxcrc) :
      StepOutcome s (retryBlock (attempted s))
  | accept (hrun : RunsAttempt s) (hsum : (attempted s).regs.lcrc = (attempted s).regs.rxcrc)
      (hnext : s.regs.index.toNat + 1 ≠ s.cfg.lit.nBlocks) :
      StepOutcome s ((attempted s).withRegs (acceptRegs s.regs.index.toNat (attempted s).regs))
  | complete (hrun : RunsAttempt s) (hsum : (attempted s).regs.lcrc = (attempted s).regs.rxcrc)
      (hlast : s.regs.index.toNat + 1 = s.cfg.lit.nBlocks) : StepOutcome s (completeTransfer (attempted s))

theorem transferStep_of_attempt {s : State} (h : RunsAttempt s) : transferStep s = judgeBlock (attempted s) := by
  simp only [transferStep, pollAndStart_mode h]

theorem transferStep_of_no_attempt {s : State} (h : ¬RunsAttempt s) :
    transferStep s = (s.withRegs (polledRegs s)).withEnv (pollLine s.cfg s.env).2 := by
  have hmode : (polledRegs s).mode = .idle := idle_of_not_runsAttempt h
  obtain ⟨-, hstart⟩ := not_or.1 h
  simp only [transferStep, pollAndStart_of_no_start hstart, State.withEnv_regs, State.withRegs_regs, hmode]

theorem transferStep_outcome (s : State) : StepOutcome s (transferStep s) := by
  by_cases hrun : RunsAttempt s
  · rw [transferStep_of_attempt hrun, judgeBlock]
    split
    next hsum => exact .retry hrun hsum
    next hsum =>
      simp only [acceptBlock, receiveBlock_index, receiveBlock_cfg, pollAndStart_index, pollAndStart_cfg]
      split
      next hlast => exact .complete hrun (not_not.1 hsum) hlast
      next hnext => exact .accept hrun (not_not.1 hsum) hnext
  · rw [transferStep_of_no_attempt hrun]
    exact .noAttempt hrun

theorem exec_step_outcome {s t : State} (h : exec .step s = .next t) : StepOutcome s t := by
  obtain ⟨-, rfl⟩ := exec_step_next h
  exact transferStep_outcome s

theorem exec_step_of_index_lt {s : State} (h : s.regs.index.toNat < s.cfg.lit.nBlocks) :
    exec .step s = .next (transferStep s) := execStep_of_index_lt h

/-- `INDEX + 1` fits the register wherever it does not complete the transfer (00_scope.md R8; log 21). -/
theorem acceptRegs_index_toNat {c : Config} {i : Nat} (hi : i < c.lit.nBlocks) (hnext : i + 1 ≠ c.lit.nBlocks) (r : Regs) :
    (acceptRegs i r).index.toNat = i + 1 := by
  obtain ⟨-, -, -, -, -, hblocks⟩ := c.fits
  rw [acceptRegs, BitVec.toNat_ofNat]
  exact Nat.mod_eq_of_lt (by omega)

section
variable {s t : State}

/-- What every outcome keeps. -/
theorem StepOutcome.keeps (h : StepOutcome s t) :
    t.regs.data = s.regs.data ∧ t.regs.errc = s.regs.errc ∧ t.host = s.host ∧ t.reply = s.reply ∧ t.cfg = s.cfg := by
  cases h with
  | noAttempt => exact ⟨rfl, rfl, rfl, rfl, rfl⟩
  | retry | accept | complete =>
    exact ⟨pollAndStart_data s, pollAndStart_errc s, pollAndStart_host s, pollAndStart_reply s, pollAndStart_cfg s⟩

theorem StepOutcome.poll_eq (h : StepOutcome s t) : t.regs.poll = (pollLine s.cfg s.env).1 := by
  cases h with
  | noAttempt => rfl
  | retry | accept | complete => exact pollAndStart_poll s

theorem StepOutcome.started_iff (h : StepOutcome s t) : t.regs.started = true ↔ TakesStart s := by
  cases h with
  | noAttempt hno =>
    obtain ⟨-, hstart⟩ := not_or.1 hno
    exact iff_of_false nofun hstart
  | retry | accept | complete => exact (Bool.eq_iff_iff.1 (pollAndStart_started s)).trans decide_eq_true_iff

/-- `LAST` tells whether an attempt ran (R141). -/
theorem StepOutcome.last_eq_none_iff (h : StepOutcome s t) : t.regs.last = .none ↔ ¬RunsAttempt s := by
  cases h with
  | noAttempt hno => exact iff_of_true rfl hno
  | retry hrun | accept hrun | complete hrun => exact iff_of_false nofun (not_not_intro hrun)

theorem StepOutcome.eq_of_no_attempt (h : StepOutcome s t) (hno : ¬RunsAttempt s) :
    t = (s.withRegs (polledRegs s)).withEnv (pollLine s.cfg s.env).2 := by
  cases h with
  | noAttempt => rfl
  | retry hrun | accept hrun | complete hrun => exact absurd hrun hno

/-- Without an attempt only `POLL` and the result fields change (R132, R141). -/
theorem StepOutcome.regs_of_no_attempt (h : StepOutcome s t) (hno : ¬RunsAttempt s) :
    t.regs = { s.regs with started := false, last := .none, poll := t.regs.poll } := by
  obtain rfl := h.eq_of_no_attempt hno
  rfl

/-- Without an attempt the memory and the flip-flop stay. -/
theorem StepOutcome.env_of_no_attempt (h : StepOutcome s t) (hno : ¬RunsAttempt s) :
    t.env.mem = s.env.mem ∧ t.env.latch = s.env.latch := by
  obtain rfl := h.eq_of_no_attempt hno
  have hline := pollLine_reaches s.cfg s.env
  obtain ⟨hlatch, -⟩ := hline.attempt.latch
  exact ⟨hline.link_mem, hlatch⟩

/-- The verdict leaves the two checksums and `BSTART` as the attempt left them. -/
theorem StepOutcome.attempt_results (h : StepOutcome s t) (hrun : RunsAttempt s) :
    t.regs.lcrc = (attempted s).regs.lcrc ∧ t.regs.rxcrc = (attempted s).regs.rxcrc ∧
      t.regs.bstart = blockStart s.cfg s.regs.index.toNat := by
  cases h with
  | noAttempt hno => exact absurd hrun hno
  | retry | accept | complete =>
    refine ⟨rfl, rfl, ?_⟩
    change blockStart (pollAndStart s).cfg (pollAndStart s).regs.index.toNat = _
    rw [pollAndStart_cfg, pollAndStart_index]

end

/-- Settles O34: `LAST` is 0b00 exactly where no attempt ran, and every event leaves a low strobe low. -/
theorem stepCommandFrame : Obligations.StepCommandFrame := by
  intro s t hexec
  have hout := exec_step_outcome hexec
  obtain ⟨hdata, herrc, hhost, hreply, hcfg⟩ := hout.keeps
  refine ⟨hdata, herrc, hhost, hreply, hcfg, (exec_reaches hexec).stbP_low, fun hlast => ?_⟩
  have hno := hout.last_eq_none_iff.1 hlast
  exact ⟨hout.regs_of_no_attempt hno, hout.env_of_no_attempt hno⟩

/-- Settles O37: of the four outcomes only the retry leaves 0b10 in `LAST`, and after the attempt it moves nothing but the
trace. -/
theorem mismatchRequestsRetry : Obligations.MismatchRequestsRetry := by
  intro s t hexec
  cases exec_step_outcome hexec with
  | noAttempt => exact ⟨iff_of_false nofun (fun ⟨hlast, _⟩ => hlast rfl), nofun⟩
  | accept _ hsum | complete _ hsum => exact ⟨iff_of_false nofun (fun ⟨_, hne⟩ => hne hsum), nofun⟩
  | retry hrun hsum =>
    refine ⟨iff_of_true rfl ⟨nofun, hsum⟩, fun _ => ⟨pollAndStart_index s, pollAndStart_mode hrun,
      fun hbusy => pollAndStart_we_of_transferring hbusy, fun hidle => ?_, rfl, rfl⟩⟩
    exact pollAndStart_we_of_start (hrun.resolve_left (by simp [hidle]))

/-- Settles O38: equal checksums leave the accept and the completion, which `INDEX + 1` separates. -/
theorem matchAdvancesOrCompletes : Obligations.MatchAdvancesOrCompletes := by
  intro s t hexec hlast hsum
  obtain ⟨hindex, -⟩ := exec_step_next hexec
  cases exec_step_outcome hexec with
  | noAttempt => exact absurd rfl hlast
  | retry _ hne => exact absurd hsum hne
  | accept hrun _ hnext =>
    exact ⟨fun _ => ⟨acceptRegs_index_toNat hindex hnext _, rfl, pollAndStart_mode hrun, rfl⟩, fun heq => absurd heq hnext⟩
  | complete _ _ heq =>
    obtain ⟨_, _, hclr⟩ := Env.weClr_spec (attempted s).env
    exact ⟨fun hnext => absurd heq hnext, fun _ => ⟨rfl, rfl, rfl, rfl, congrArg Env.trace hclr⟩⟩

/-- Settles O58: a retry leaves the mode Transferring and `INDEX` alone, so the next command attempts the block at the same
`INDEX`. -/
theorem retryRedeliversSameBlock : Obligations.RetryRedeliversSameBlock := by
  intro s t u hst hlast htu
  obtain ⟨-, hretry⟩ := mismatchRequestsRetry s t hst
  obtain ⟨hindex, hmode, -⟩ := hretry hlast
  have hrun_s : RunsAttempt s := by
    by_contra hno
    simp [(exec_step_outcome hst).last_eq_none_iff.2 hno] at hlast
  have hrun_t : RunsAttempt t := .inl hmode
  obtain ⟨-, -, hbstart_t⟩ := (exec_step_outcome hst).attempt_results hrun_s
  obtain ⟨-, -, hbstart_u⟩ := (exec_step_outcome htu).attempt_results hrun_t
  have hcfg : t.cfg = s.cfg := exec_cfg hst
  refine ⟨hindex, by rw [hbstart_u, hbstart_t, hcfg, hindex],
    fun hnone => (exec_step_outcome htu).last_eq_none_iff.1 hnone hrun_t, ?_⟩
  obtain ⟨hlt, -⟩ := exec_step_next htu
  rw [← hindex, ← hcfg]
  cases exec_step_outcome htu with
  | noAttempt hno => exact absurd hrun_t hno
  | retry => exact ⟨nofun, nofun⟩
  | accept _ _ hnext => exact ⟨fun _ => acceptRegs_index_toNat hlt hnext _, nofun⟩
  | complete _ _ heq => exact ⟨nofun, fun _ => ⟨rfl, heq⟩⟩

end Sys2Proof.Machine
end

section
/-! The write-enable bit and the mode (42_sequencer.md R133, R144), and the assertions of a start. -/

namespace Sys2Proof.Machine

theorem raiseCmdError_mode_we (c : CmdError) (s : State) :
    (raiseCmdError c s).regs.mode = s.regs.mode ∧ (raiseCmdError c s).regs.we = s.regs.we := by
  rw [raiseCmdError_eq]
  exact ⟨rfl, rfl⟩

theorem readWindow_mode_we (off : Offset) (width : Nat) (s : State) :
    (readWindow off width s).regs.mode = s.regs.mode ∧ (readWindow off width s).regs.we = s.regs.we := by
  unfold readWindow
  dsimp only
  split
  · exact ⟨rfl, rfl⟩
  · exact raiseCmdError_mode_we .badAccess s

theorem LatchFollowsMode.of_eq {r r' : Regs} (h : LatchFollowsMode r) (heq : r'.mode = r.mode ∧ r'.we = r.we) :
    LatchFollowsMode r' := by
  obtain ⟨hmode, hwe⟩ := heq
  rw [LatchFollowsMode, hmode, hwe]
  exact h

theorem exec_mode_we {i : Instr} {s t : State} (hi : i ≠ .step) (h : exec i s = .next t) :
    t.regs.mode = s.regs.mode ∧ t.regs.we = s.regs.we := by
  obtain ⟨hregs, -⟩ := onlyStepMovesTheSession i s t hi h
  rw [hregs]
  exact ⟨rfl, rfl⟩

theorem pollAndStart_latchFollowsMode {s : State} (h : LatchFollowsMode s.regs) :
    LatchFollowsMode (pollAndStart s).regs := by
  rw [pollAndStart_regs]
  split
  · exact iff_of_true rfl rfl
  · exact h

theorem StepOutcome.latchFollowsMode {s t : State} (hout : StepOutcome s t) (h : LatchFollowsMode s.regs) :
    LatchFollowsMode t.regs := by
  cases hout with
  | noAttempt => exact h
  | retry | accept => exact (pollAndStart_latchFollowsMode h).of_eq ⟨rfl, rfl⟩
  | complete => exact iff_of_false nofun nofun

theorem step_latchFollowsMode {s t : State} (h : LatchFollowsMode s.regs) (hstep : step s = .next t) :
    LatchFollowsMode t.regs := by
  obtain ⟨-, rfl⟩ | ⟨-, -, -, -, rfl⟩ | ⟨off, width, rest, -, rfl⟩ | ⟨-, -, -, rest, c, -, rfl⟩ |
    ⟨-, -, rest, i, -, -, hexec⟩ := step_next_cases hstep
  · exact h
  · exact iff_of_false nofun nofun
  · exact h.of_eq (readWindow_mode_we off width (s.withHost rest))
  · exact h.of_eq (raiseCmdError_mode_we c (s.withHost rest))
  · by_cases hi : i = .step
    · subst hi
      exact (exec_step_outcome hexec).latchFollowsMode h
    · exact h.of_eq (exec_mode_we (s := s.withHost rest) hi hexec)

/-- Settles O53. The mode goes up only by a start, after which a retry and an accept leave it up, and down only by a
completion. -/
theorem writeEnableFollowsMode : Obligations.WriteEnableFollowsMode := by
  refine ⟨fun s t h hstep => step_latchFollowsMode h hstep, ⟨rfl, rfl⟩, fun s => ⟨rfl, rfl⟩,
    fun i s t hi h => exec_mode_we hi h, fun s t hexec => ?_⟩
  have hout := exec_step_outcome hexec
  have hstarted := hout.started_iff
  cases hout with
  | noAttempt hno =>
    have hidle : (polledRegs s).mode = .idle := idle_of_not_runsAttempt hno
    exact ⟨fun _ hup => absurd (hidle.symm.trans hup) nofun, fun hbusy => absurd (.inl hbusy) hno⟩
  | retry hrun | accept hrun =>
    refine ⟨fun hidle _ => ?_, fun _ hdown => absurd ((pollAndStart_mode hrun).symm.trans hdown) nofun⟩
    have hstart : TakesStart s := hrun.resolve_left (by simp [hidle])
    exact ⟨hstarted.2 hstart, pollAndStart_we_of_start hstart⟩
  | complete => exact ⟨fun _ => nofun, fun _ _ => ⟨rfl, rfl⟩⟩

/-! Where the assertions stand in the trace. -/

theorem Env.Reaches.trace_not_mem {c : Config} {ev : Event} {e e' : Env} (h : Env.Reaches c (· ≠ ev) e e') :
    ∃ evs : List Event, e'.trace = e.trace ++ evs ∧ ev ∉ evs := by
  obtain ⟨evs, hne, htrace⟩ := h.trace
  exact ⟨evs, htrace, fun hmem => hne ev hmem rfl⟩

theorem pollLine_no_weSet (s : State) : Env.Reaches s.cfg (· ≠ .weSet) s.env (pollLine s.cfg s.env).2 :=
  (pollLine_reaches s.cfg s.env).mono fun _ ⟨hset, _, _⟩ => hset

/-- The verdict makes a strobe, nothing or a de-assertion. -/
theorem judgeBlock_no_weSet (s : State) : Env.Reaches s.cfg (· ≠ .weSet) s.env (judgeBlock s).env := by
  obtain h | ⟨-, h⟩ | h := judgeBlock_outcomes s
  · rw [h]
    exact (Env.pulse_reaches s.cfg s.env).mono fun _ ⟨hset, _, _⟩ => hset
  · rw [h]
    exact .refl
  · rw [h]
    exact .of_event (ev := .weClr) nofun (Env.weClr_follows s.cfg s.env)

/-- After the start phase a `step` command asserts no latch. -/
theorem transferStep_no_weSet {s : State} (hs : s.regs.index.toNat < s.cfg.lit.nBlocks) :
    Env.Reaches s.cfg (· ≠ .weSet) (pollAndStart s).env (transferStep s).env := by
  by_cases hrun : RunsAttempt s
  · have hattempt := (receiveBlock_reaches (s := pollAndStart s) (by simpa using hs)).mono
      (Q := (· ≠ .weSet)) fun _ ⟨hset, _, _⟩ => hset
    have hjudge := judgeBlock_no_weSet (attempted s)
    rw [receiveBlock_cfg, pollAndStart_cfg] at hjudge
    rw [pollAndStart_cfg] at hattempt
    rw [transferStep_of_attempt hrun]
    exact hattempt.trans hjudge
  · obtain ⟨-, hno⟩ := not_or.1 hrun
    rw [transferStep_of_no_attempt hrun, pollAndStart_of_no_start hno]
    exact .refl

/-- The assertions of a start stand in a row, and no other is made. -/
theorem transferStep_trace_of_start {s : State} (hs : s.regs.index.toNat < s.cfg.lit.nBlocks) (h : TakesStart s) :
    ∃ pre post : List Event, (transferStep s).env.trace =
      s.env.trace ++ (pre ++ List.replicate s.cfg.lit.weAssertCount .weSet ++ post) ∧ .weSet ∉ pre ∧ .weSet ∉ post := by
  obtain ⟨pre, hpre, hpreSet⟩ := (pollLine_no_weSet s).trace_not_mem
  obtain ⟨post, hpost, hpostSet⟩ := (transferStep_no_weSet hs).trace_not_mem
  obtain ⟨_, _, hset⟩ := Env.weSetTimes_spec s.cfg.lit.weAssertCount (pollLine s.cfg s.env).2
  have hstart : (pollAndStart s).env.trace =
      s.env.trace ++ (pre ++ List.replicate s.cfg.lit.weAssertCount .weSet) := by
    rw [pollAndStart_of_start h, State.withEnv_env, hset, hpre, List.append_assoc]
  exact ⟨pre, post, by rw [hpost, hstart, List.append_assoc], hpreSet, hpostSet⟩

/-- Without a start no latch is asserted. -/
theorem transferStep_trace_of_no_start {s : State} (hs : s.regs.index.toNat < s.cfg.lit.nBlocks) (h : ¬TakesStart s) :
    ∃ evs : List Event, (transferStep s).env.trace = s.env.trace ++ evs ∧ .weSet ∉ evs := by
  have hpoll := pollLine_no_weSet s
  have hrest := transferStep_no_weSet hs
  rw [pollAndStart_of_no_start h] at hrest
  exact (hpoll.trans hrest).trace_not_mem

/-- After a start from block 0 of several the session is Transferring with `WE` set: the attempt completes nothing. -/
theorem StepOutcome.we_mode_of_start {s t : State} (hout : StepOutcome s t) (h : TakesStart s)
    (hnext : s.regs.index.toNat + 1 ≠ s.cfg.lit.nBlocks) : t.regs.we = true ∧ t.regs.mode = .transferring := by
  cases hout with
  | noAttempt hno => exact absurd (.inr h) hno
  | retry hrun | accept hrun => exact ⟨pollAndStart_we_of_start h, pollAndStart_mode hrun⟩
  | complete _ _ heq => exact absurd heq hnext

/-- Settles O35. With the invariant `INDEX` is 0 in Idle, so a start is never from the last of 8192 blocks. -/
theorem startAssertsLatch : Obligations.StartAssertsLatch := by
  intro s t hinv hdoc hexec
  have hout := exec_step_outcome hexec
  have hstarted : t.regs.started = true ↔ s.regs.mode = .idle ∧ t.regs.poll = s.cfg.plat.startPattern := by
    rw [hout.started_iff, hout.poll_eq]
  have hpoll_only (hno : ¬TakesStart s) (hidle : s.regs.mode = .idle) :
      t.regs = { s.regs with started := false, last := .none, poll := t.regs.poll } :=
    hout.regs_of_no_attempt (not_or.2 ⟨by simp [hidle], hno⟩)
  obtain ⟨hindex, rfl⟩ := exec_step_next hexec
  by_cases hstart : TakesStart s
  · obtain ⟨pre, post, htrace, hpre, hpost⟩ := transferStep_trace_of_start hindex hstart
    have hnext : s.regs.index.toNat + 1 ≠ s.cfg.lit.nBlocks := by
      obtain ⟨hidle, -⟩ := hstart
      rw [hinv.session.2 hidle, hdoc]
      decide
    obtain ⟨hwe, hmode⟩ := hout.we_mode_of_start hstart hnext
    have hset := hout.started_iff.2 hstart
    rw [hdoc] at htrace
    exact ⟨_, htrace, hstarted, fun _ => ⟨hwe, hmode, pre, post, rfl, hpre, hpost⟩, by simp [hset], by simp [hset]⟩
  · obtain ⟨evs, htrace, hevs⟩ := transferStep_trace_of_no_start hindex hstart
    exact ⟨evs, htrace, hstarted, fun hset => absurd (hout.started_iff.1 hset) hstart, fun _ => hevs,
      fun _ => hpoll_only hstart⟩

end Sys2Proof.Machine
end

section
/-! What a `step` command does not depend on: the seed in `CRC`, and `START_PATTERN` while Transferring (42_sequencer.md R138,
R145). -/

namespace Sys2Proof.Machine

/-! The seed. -/

theorem pollAndStart_withCrc (s : State) (v : Word) : pollAndStart (s.withCrc v) = (pollAndStart s).withCrc v := by
  rw [pollAndStart_eq, pollAndStart_eq, apply_ite (State.withCrc · v)]
  rfl

/-- The attempt writes its local checksum over the seed (R138). -/
theorem attempted_withCrc (s : State) (v : Word) : attempted (s.withCrc v) = attempted s := by
  rw [attempted, pollAndStart_withCrc]
  rfl

/-- Settles O47: the poll and start phases leave the seed alone, and an attempt overwrites it. -/
theorem stepIgnoresSeed : Obligations.StepIgnoresSeed := by
  intro s t v hexec
  have hout := exec_step_outcome hexec
  obtain ⟨hindex, rfl⟩ := exec_step_next hexec
  have hseed : exec .step (s.withCrc v) = .next (transferStep (s.withCrc v)) := exec_step_of_index_lt (s := s.withCrc v) hindex
  rw [hseed, ne_eq, hout.last_eq_none_iff, not_not]
  refine ⟨fun hrun => ?_, fun hno => ?_⟩
  · have hrun' : RunsAttempt (s.withCrc v) := hrun
    rw [transferStep_of_attempt hrun', transferStep_of_attempt hrun, attempted_withCrc]
  · have hno' : ¬RunsAttempt (s.withCrc v) := hno
    rw [transferStep_of_no_attempt hno', transferStep_of_no_attempt hno]
    rfl

/-! What the loops read of the configuration. -/

section
variable {c c' : Config} (hdest : c'.plat.destAccepts = c.plat.destAccepts)
include hdest

theorem readBack_congr (k : Nat) : ∀ (a : Cursor) (e : Env), readBack c' k a e = readBack c k a e := by
  induction k with
  | zero => exact fun _ _ => rfl
  | succ k ih =>
    intro a e
    simp only [readBack, hdest, ih]

variable (hlit : c'.lit = c.lit)
include hlit

theorem receivePayload_congr (k : Nat) : ∀ (cur : Cursor) (e : Env), receivePayload c' k cur e = receivePayload c k cur e := by
  induction k with
  | zero => exact fun _ _ => rfl
  | succ k ih =>
    intro cur e
    simp only [receivePayload, hlit, hdest, ih]

theorem localBytes_congr (hsrc : c'.crcSource = c.crcSource) (start : Cursor) (rx : List Byte) (e : Env) :
    localBytes c' start rx e = localBytes c start rx e := by
  unfold localBytes
  rw [hsrc]
  cases c.crcSource with
  | readback => simp only [hlit, readBack_congr hdest]
  | received => rfl

end

/-! The start pattern. -/

section
variable (s : State) (p : Word)

theorem receiveBlock_withStartPattern : receiveBlock (s.withStartPattern p) = (receiveBlock s).withStartPattern p := by
  have hpay := receivePayload_congr (c' := (s.withStartPattern p).cfg) (c := s.cfg) rfl rfl
  have hlocal := localBytes_congr (c' := (s.withStartPattern p).cfg) (c := s.cfg) rfl rfl rfl
  unfold receiveBlock
  simp only [hpay, hlocal]
  rfl

theorem judgeBlock_withStartPattern : judgeBlock (s.withStartPattern p) = (judgeBlock s).withStartPattern p := by
  have haccept : acceptBlock (s.withStartPattern p) = (acceptBlock s).withStartPattern p := by
    rw [acceptBlock, acceptBlock, apply_ite (State.withStartPattern · p)]
    rfl
  rw [judgeBlock, haccept, judgeBlock, apply_ite (State.withStartPattern · p)]
  rfl

variable {s}

/-- While Transferring the poll is only stored, whatever the start pattern (R145). -/
theorem attempted_withStartPattern (h : s.regs.mode = .transferring) :
    attempted (s.withStartPattern p) = (attempted s).withStartPattern p := by
  have hp : (s.withStartPattern p).regs.mode = .transferring := h
  rw [attempted, attempted, pollAndStart_of_no_start (not_takesStart_of_transferring h),
    pollAndStart_of_no_start (not_takesStart_of_transferring hp), ← receiveBlock_withStartPattern]
  rfl

theorem transferStep_withStartPattern (h : s.regs.mode = .transferring) :
    transferStep (s.withStartPattern p) = (transferStep s).withStartPattern p := by
  have hp : RunsAttempt (s.withStartPattern p) := .inl h
  rw [transferStep_of_attempt hp, transferStep_of_attempt (.inl h), attempted_withStartPattern p h,
    judgeBlock_withStartPattern]

end

/-- The poll: an optional latch pulse, then the answers of the primary endpoint (R132). -/
theorem pollLine_spec (c : Config) (e : Env) : ∃ bits : List Bool, bits.length = c.lit.pollBits ∧
    (pollLine c e).1 = wordOfBits bits ∧
    (pollLine c e).2.trace = e.trace ++ (if c.primaryPollLatch then [.pulse] else []) ++ bits.map .rdP := by
  obtain ⟨bits, hlen, -, hread⟩ := (if c.primaryPollLatch then e.pulse else e).readBits_spec .primary c.lit.pollBits
  have hline : pollLine c e = (wordOfBits bits, (if c.primaryPollLatch then e.pulse else e).afterReads .primary bits) := hread
  refine ⟨bits, hlen, by rw [hline], ?_⟩
  rw [hline, Env.afterReads_primary]
  cases c.primaryPollLatch with
  | true => rfl
  | false => simp

/-- Settles O39. While Transferring the poll and start phases are the poll alone; in Idle without a start nothing follows them. -/
theorem pollValueInertOutsideStart : Obligations.PollValueInertOutsideStart := by
  intro s t hexec
  have hout := exec_step_outcome hexec
  refine ⟨fun hbusy => ?_, fun hidle hpoll => ?_⟩
  · have hno := not_takesStart_of_transferring hbusy
    have hstarted : t.regs.started = false := Bool.eq_false_iff.2 (mt hout.started_iff.1 hno)
    obtain ⟨hindex, rfl⟩ := exec_step_next hexec
    obtain ⟨bits, hlen, hvalue, hline⟩ := pollLine_spec s.cfg s.env
    obtain ⟨rest, hrest, hset⟩ := (transferStep_no_weSet hindex).trace_not_mem
    rw [pollAndStart_of_no_start hno, State.withEnv_env, hline] at hrest
    refine ⟨⟨bits, rest, hlen, hout.poll_eq.trans hvalue, hrest, hset⟩, hstarted, fun p => ?_⟩
    rw [← transferStep_withStartPattern p hbusy]
    exact exec_step_of_index_lt (s := s.withStartPattern p) hindex
  · have hno : ¬RunsAttempt s := by
      rw [hout.poll_eq] at hpoll
      simp [TakesStart, hidle, hpoll]
    exact ⟨hout.regs_of_no_attempt hno, hout.env_of_no_attempt hno⟩

end Sys2Proof.Machine
end

section
/-! The destination memory behind a `step` command: only the block at `address(INDEX)` is written, and a storing memory reads back
what was received (20_memory.md R58, R59, 42_sequencer.md R135, R136, R138). -/

namespace Sys2Proof.Machine

theorem Env.Reaches.mem_of_noWrite {c : Config} {e e' : Env} (h : Env.Reaches c NoWrite e e') : e'.mem = e.mem := by
  obtain ⟨evs, hevs, hf⟩ := h
  exact hf.mem_of_noWrite hevs

theorem judgeBlock_mem (s : State) : (judgeBlock s).env.mem = s.env.mem := (judgeBlock_reaches_noWrite s).mem_of_noWrite

/-- The bytes of a block reach the memory as writes from its address upwards, and nothing else of the attempt does. -/
theorem receiveBlock_mem {s : State} (h : s.regs.index.toNat < s.cfg.lit.nBlocks) :
    ∃ bytes : List Byte, bytes.length = s.cfg.lit.blockBytes ∧ (receiveBlock s).env.mem =
      acceptAll s.cfg.plat.destAccepts s.env.latch s.env.mem (address s.cfg s.regs.index.toNat) bytes := by
  obtain ⟨payload, sum, answers, _, hspec⟩ := receiveBlock_spec s h
  obtain ⟨⟨-, hlen, -⟩, -, -, heq⟩ :=
    hspec ⟨List.replicate s.cfg.lit.pollBits false, payload, sum, answers⟩ rfl rfl rfl List.length_replicate
  exact ⟨payload.map byteOfBits, by rw [List.length_map, hlen], by rw [heq]; rfl⟩

theorem receiveBlock_read_other {s : State} (h : s.regs.index.toNat < s.cfg.lit.nBlocks) {a : Nat}
    (ha : a < address s.cfg s.regs.index.toNat ∨ address s.cfg s.regs.index.toNat + s.cfg.lit.blockBytes ≤ a) :
    Memory.read (receiveBlock s).env.mem a = Memory.read s.env.mem a := by
  obtain ⟨bytes, hlen, hmem⟩ := receiveBlock_mem h
  rw [hmem, acceptAll_read_other _ _ _ _ _ _ (by rwa [hlen])]

/-- Settles O41: the poll, the start and the verdict write nothing, and the attempt only its block. -/
theorem stepWritesOnlyItsBlock : Obligations.StepWritesOnlyItsBlock := by
  intro s t hexec
  have hout := exec_step_outcome hexec
  have hmem_of_no_attempt (hno : ¬RunsAttempt s) : t.env.mem = s.env.mem := by
    obtain ⟨hmem, -⟩ := hout.env_of_no_attempt hno
    exact hmem
  refine ⟨fun a ha => ?_, fun hlast => hmem_of_no_attempt (hout.last_eq_none_iff.1 hlast)⟩
  obtain ⟨hindex, rfl⟩ := exec_step_next hexec
  by_cases hrun : RunsAttempt s
  · rw [transferStep_of_attempt hrun, judgeBlock_mem,
      receiveBlock_read_other (s := pollAndStart s) (by simpa using hindex) (by simpa using ha), pollAndStart_mem]
  · rw [hmem_of_no_attempt hrun]

/-! The read-back of a storing memory. -/

theorem acceptAll_storeAlways_read (latch : Bool) (bytes : List Byte) : ∀ (m : Memory) (a j : Nat), j < bytes.length →
    Memory.read (acceptAll .storeAlways latch m a bytes) (a + j) = bytes[j]? := by
  induction bytes with
  | nil => exact fun _ _ _ hj => absurd hj (Nat.not_lt_zero _)
  | cons b bytes ih =>
    intro m a j hj
    rw [acceptAll]
    cases j with
    | zero =>
      rw [acceptAll_read_other _ _ _ _ _ _ (.inl (by omega))]
      exact Memory.read_write_same m a b
    | succ j =>
      rw [Nat.add_comm j 1, ← Nat.add_assoc, ih _ _ _ (Nat.lt_of_succ_lt_succ hj), Nat.add_comm 1 j,
        List.getElem?_cons_succ]

/-- Where every write is stored, the read-back answers the bytes just received. -/
theorem readBack_receivePayload {c : Config} (hd : c.plat.destAccepts = .storeAlways) {k : Nat} {cur : Cursor} {e e' : Env}
    (hfit : cur.toNat + k ≤ 2 ^ 32) (hmem : e'.mem = (receivePayload c k cur e).2.2.mem) :
    (readBack c k cur e').1 = (receivePayload c k cur e).1 := by
  obtain ⟨payload, hlen, -, -, hpay⟩ := receivePayload_spec c k cur e hfit
  obtain ⟨answers, _, hanswers, hread, hknown⟩ := readBack_spec c k cur e' hfit
  have hbytes : (payload.map byteOfBits).length = k := by rw [List.length_map, hlen]
  rw [hpay, hd] at hmem
  dsimp only at hmem
  rw [hpay, hread]
  change answers = payload.map byteOfBits
  refine List.ext_getElem? fun j => ?_
  by_cases hj : j < k
  · have hstored := acceptAll_storeAlways_read e.latch (payload.map byteOfBits) e.mem cur.toNat j (by omega)
    rw [← hmem, List.getElem?_eq_getElem (by omega)] at hstored
    rw [hknown (by simp [hd]) j _ hj hstored, List.getElem?_eq_getElem (by omega)]
  · rw [List.getElem?_eq_none (by omega), List.getElem?_eq_none (by omega)]

/-! The parts of an attempt that the local checksum is taken after. -/

section
variable (s : State)

/-- The payload of the attempt (R136). -/
def blockPayload : List Byte × Cursor × Env :=
  receivePayload s.cfg s.cfg.lit.blockBytes (blockStart s.cfg s.regs.index.toNat) s.env.pulse

/-- The received checksum of the attempt (R137). -/
def blockSum : Word × Env := (blockPayload s).2.2.readBits .secondary s.cfg.lit.checksumReadBits

/-- The bytes of the local checksum of the attempt (R138). -/
def blockLocal : List Byte × Env :=
  localBytes s.cfg (blockStart s.cfg s.regs.index.toNat) (blockPayload s).1 (blockSum s).2

theorem receiveBlock_regs : (receiveBlock s).regs =
    { s.regs with
      bstart := blockStart s.cfg s.regs.index.toNat
      cursor := (blockPayload s).2.1
      rxcrc := (blockSum s).1
      lcrc := checksum s.cfg.lit (blockLocal s).1
      crc := checksum s.cfg.lit (blockLocal s).1 } := rfl

theorem receiveBlock_env : (receiveBlock s).env = (blockLocal s).2 := rfl

theorem blockSum_mem : (blockSum s).2.mem = (blockPayload s).2.2.mem :=
  (Env.readBits_reaches s.cfg (blockPayload s).2.2 .secondary s.cfg.lit.checksumReadBits).link_mem

theorem blockLocal_mem : (blockLocal s).2.mem = (blockSum s).2.mem :=
  (localBytes_reaches_noWrite s.cfg _ _ _).mem_of_noWrite

variable {s}

theorem blockLocal_received (hsrc : s.cfg.crcSource = .received) : blockLocal s = ((blockPayload s).1, (blockSum s).2) := by
  rw [blockLocal, localBytes, hsrc]

theorem blockLocal_readback (hd : s.cfg.plat.destAccepts = .storeAlways) (hsrc : s.cfg.crcSource = .readback)
    (h : s.regs.index.toNat < s.cfg.lit.nBlocks) : (blockLocal s).1 = (blockPayload s).1 := by
  have hfit : (blockStart s.cfg s.regs.index.toNat).toNat + s.cfg.lit.blockBytes ≤ 2 ^ 32 := by
    rw [blockStart_toNat s.cfg h]
    exact (address_end s.cfg h).trans (destination_end s.cfg)
  rw [blockLocal, localBytes, hsrc]
  exact readBack_receivePayload hd hfit (blockSum_mem s)

end

/-- The state with `CRC_SOURCE` RECEIVED (D11). -/
def State.withReceived (s : State) : State := { s with cfg := { s.cfg with crcSource := .received } }

theorem pollAndStart_withReceived (s : State) : pollAndStart s.withReceived = (pollAndStart s).withReceived := by
  rw [pollAndStart_eq, pollAndStart_eq, apply_ite State.withReceived]
  rfl

/-- Two states with the same registers and the same memory. -/
def SameRegsAndMemory (s t : State) : Prop := s.regs = t.regs ∧ s.env.mem = t.env.mem

theorem receiveBlock_withReceived {s : State} (hd : s.cfg.plat.destAccepts = .storeAlways) (hsrc : s.cfg.crcSource = .readback)
    (h : s.regs.index.toNat < s.cfg.lit.nBlocks) : SameRegsAndMemory (receiveBlock s.withReceived) (receiveBlock s) := by
  have hpay : blockPayload s.withReceived = blockPayload s :=
    receivePayload_congr (c' := s.withReceived.cfg) (c := s.cfg) rfl rfl _ _ _
  have hsum : blockSum s.withReceived = blockSum s := by
    rw [blockSum, hpay]
    rfl
  have hlocal : blockLocal s.withReceived = ((blockPayload s).1, (blockSum s).2) := by
    rw [blockLocal_received rfl, hpay, hsum]
  refine ⟨?_, ?_⟩
  · rw [receiveBlock_regs, receiveBlock_regs, blockLocal_readback hd hsrc h, hlocal, hpay, hsum]
    rfl
  · rw [receiveBlock_env, receiveBlock_env, hlocal, blockLocal_mem]

theorem judgeBlock_regs (s : State) : (judgeBlock s).regs =
    if s.regs.lcrc ≠ s.regs.rxcrc then retryRegs s.regs
    else if s.regs.index.toNat + 1 = s.cfg.lit.nBlocks then completeRegs s.regs
    else acceptRegs s.regs.index.toNat s.regs := by
  unfold judgeBlock acceptBlock
  dsimp only
  split_ifs <;> rfl

/-- The verdict on the registers and the memory depends on nothing else but `N_BLOCKS`. -/
theorem SameRegsAndMemory.judgeBlock {s t : State} (h : SameRegsAndMemory s t) (hn : s.cfg.lit.nBlocks = t.cfg.lit.nBlocks) :
    SameRegsAndMemory (judgeBlock s) (judgeBlock t) := by
  obtain ⟨hregs, hmem⟩ := h
  exact ⟨by rw [judgeBlock_regs, judgeBlock_regs, hregs, hn], by rw [judgeBlock_mem, judgeBlock_mem, hmem]⟩

/-- Settles O46: the two choices differ in the read-back alone, which a storing memory answers with the bytes received. -/
theorem readbackAgreesWithReceived : Obligations.ReadbackAgreesWithReceived := by
  intro s t hd hsrc hexec
  obtain ⟨hindex, rfl⟩ := exec_step_next hexec
  refine ⟨transferStep s.withReceived, exec_step_of_index_lt (s := s.withReceived) hindex, ?_⟩
  change SameRegsAndMemory _ _
  by_cases hrun : RunsAttempt s
  · have hrun' : RunsAttempt s.withReceived := hrun
    rw [transferStep_of_attempt hrun', transferStep_of_attempt hrun, attempted, pollAndStart_withReceived]
    exact (receiveBlock_withReceived (s := pollAndStart s) (by simpa using hd) (by simpa using hsrc)
      (by simpa using hindex)).judgeBlock rfl
  · have hrun' : ¬RunsAttempt s.withReceived := hrun
    rw [transferStep_of_no_attempt hrun', transferStep_of_no_attempt hrun]
    exact ⟨rfl, rfl⟩

end Sys2Proof.Machine
end

section
/-! One `step` command as one iteration of the transfer loop (42_sequencer.md R131): the registers and the events of each phase,
in terms of what the environment delivered. -/

namespace Sys2Proof.Machine

/-- The registers after the poll and start phases (R132, R133). -/
abbrev Delivery.startedRegs (s : State) (d : Delivery) : Regs :=
  if d.Starts s then startRegs (pollRegs s.regs d) else pollRegs s.regs d

/-- The assertions of the start phase (R133). -/
abbrev Delivery.assertEvents (s : State) (d : Delivery) : List Event :=
  if d.Starts s then List.replicate s.cfg.lit.weAssertCount .weSet else []

/-- The registers before the verdict of an attempt. -/
abbrev Delivery.attemptedRegs (s : State) (d : Delivery) : Regs :=
  attemptRegs s.cfg s.regs.index.toNat d (d.startedRegs s)

/-- The events before the verdict of an attempt. -/
abbrev Delivery.attemptedTrace (s : State) (d : Delivery) : List Event :=
  s.env.trace ++ pollEvents s.cfg d ++ d.assertEvents s ++ attemptEvents s.cfg s.regs.index.toNat d

/-- What the poll and start phases leave for the bits delivered. -/
def PollDelivers (s : State) (d : Delivery) : Prop :=
  (pollAndStart s).regs = d.startedRegs s ∧
    (pollAndStart s).env.trace = s.env.trace ++ pollEvents s.cfg d ++ d.assertEvents s ∧
    (pollAndStart s).env.nextP = s.env.nextP.drop s.cfg.lit.pollBits ∧ (pollAndStart s).env.nextS = s.env.nextS

theorem exists_pollDelivers (s : State) : ∃ poll : List Bool, poll.length = s.cfg.lit.pollBits ∧
    LineAnswers (if s.cfg.primaryPollLatch then s.env.pulse else s.env) .primary poll ∧
      ∀ d : Delivery, d.poll = poll → PollDelivers s d := by
  obtain ⟨poll, hlen, hans, hspec⟩ := pollAndStart_spec s
  refine ⟨poll, hlen, hans, fun d hd => ?_⟩
  obtain ⟨hno, hstart⟩ := hspec d hd
  unfold PollDelivers Delivery.startedRegs Delivery.assertEvents
  by_cases h : d.Starts s
  · obtain ⟨_, _, heq⟩ := hstart h
    rw [heq, if_pos h, if_pos h]
    exact ⟨rfl, rfl, rfl, rfl⟩
  · rw [hno h, if_neg h, if_neg h]
    exact ⟨rfl, (List.append_nil _).symm, rfl, rfl⟩

/-- The start is taken for the bits delivered exactly where the machine takes it. -/
theorem PollDelivers.starts_iff {s : State} {d : Delivery} (h : PollDelivers s d) : d.Starts s ↔ TakesStart s := by
  obtain ⟨hregs, -⟩ := h
  have hstarted : (d.startedRegs s).started = decide (TakesStart s) := hregs ▸ pollAndStart_started s
  have hdelivered : (d.startedRegs s).started = decide (d.Starts s) := by
    unfold Delivery.startedRegs
    split
    next hs => simp [startRegs, hs]
    next hs => simp [pollRegs, hs]
  exact decide_eq_decide.1 (hdelivered.symm.trans hstarted)

theorem PollDelivers.attempts_iff {s : State} {d : Delivery} (h : PollDelivers s d) : d.Attempts s ↔ RunsAttempt s :=
  or_congr_right h.starts_iff

/-- What an attempt leaves before its verdict for the bits and the answers delivered. -/
def AttemptDelivers (s : State) (d : Delivery) : Prop :=
  let line := d.payload.flatten ++ d.sum
  d.Sized s.cfg ∧ s.env.nextS.take line.length <+: line ∧
    (attempted s).regs = d.attemptedRegs s ∧ (attempted s).env.trace = d.attemptedTrace s ∧
    (attempted s).env.nextP = s.env.nextP.drop s.cfg.lit.pollBits ∧
    (attempted s).env.nextS = s.env.nextS.drop line.length

theorem exists_attemptDelivers {s : State} (h : s.regs.index.toNat < s.cfg.lit.nBlocks) :
    ∃ (payload : List (List Bool)) (sum : List Bool) (answers : List Byte), ∀ d : Delivery,
      d.poll.length = s.cfg.lit.pollBits → PollDelivers s d → d.payload = payload → d.sum = sum → d.answers = answers →
        AttemptDelivers s d := by
  obtain ⟨payload, sum, answers, _, hspec⟩ := receiveBlock_spec (pollAndStart s) (by simpa using h)
  refine ⟨payload, sum, answers, fun d hpoll ⟨hregs, htrace, hnextP, hnextS⟩ hp hs ha => ?_⟩
  obtain ⟨hsized, hprefix, -, heq⟩ := hspec d hp hs ha (by simpa using hpoll)
  rw [pollAndStart_cfg] at hsized
  rw [hnextS] at hprefix
  refine ⟨hsized, hprefix, ?_⟩
  rw [attempted, heq]
  simp only [pollAndStart_cfg, pollAndStart_index]
  rw [hregs, htrace, hnextP, hnextS]
  exact ⟨rfl, rfl, rfl, rfl⟩

theorem Env.weClr_lines (e : Env) :
    e.weClr.nextP = e.nextP ∧ e.weClr.nextS = e.nextS ∧ e.weClr.trace = e.trace ++ [.weClr] := by
  obtain ⟨_, _, h⟩ := e.weClr_spec
  rw [h]
  exact ⟨rfl, rfl, rfl⟩

/-- The three verdicts on the registers and the trace, and what none of them touches (R139, R140). -/
theorem StepOutcome.verdict {s t : State} (hout : StepOutcome s t) (hrun : RunsAttempt s) :
    t.env.nextP = (attempted s).env.nextP ∧ t.env.nextS = (attempted s).env.nextS ∧
      ((attempted s).regs.lcrc ≠ (attempted s).regs.rxcrc →
        t.regs = retryRegs (attempted s).regs ∧ t.env.trace = (attempted s).env.trace ++ [.pulse]) ∧
      ((attempted s).regs.lcrc = (attempted s).regs.rxcrc → s.regs.index.toNat + 1 ≠ s.cfg.lit.nBlocks →
        t.regs = acceptRegs s.regs.index.toNat (attempted s).regs ∧ t.env.trace = (attempted s).env.trace) ∧
      ((attempted s).regs.lcrc = (attempted s).regs.rxcrc → s.regs.index.toNat + 1 = s.cfg.lit.nBlocks →
        t.regs = completeRegs (attempted s).regs ∧ t.env.trace = (attempted s).env.trace ++ [.weClr]) := by
  cases hout with
  | noAttempt hno => exact absurd hrun hno
  | retry _ hne => exact ⟨rfl, rfl, fun _ => ⟨rfl, rfl⟩, fun heq => absurd heq hne, fun heq => absurd heq hne⟩
  | accept _ heq hnext =>
    exact ⟨rfl, rfl, fun hne => absurd heq hne, fun _ _ => ⟨rfl, rfl⟩, fun _ hlast => absurd hlast hnext⟩
  | complete _ heq hlast =>
    obtain ⟨hnextP, hnextS, htrace⟩ := (attempted s).env.weClr_lines
    exact ⟨hnextP, hnextS, fun hne => absurd heq hne, fun _ hnext => absurd hlast hnext, fun _ _ => ⟨rfl, htrace⟩⟩

/-- Settles O33: the phases one after the other, each with its part of what was delivered. -/
theorem stepCommandIsOneIteration : Obligations.StepCommandIsOneIteration := by
  intro s hindex
  have hout := transferStep_outcome s
  obtain ⟨poll, hlen, hans, hpoll⟩ := exists_pollDelivers s
  obtain ⟨payload, sum, answers, hattempt⟩ := exists_attemptDelivers hindex
  have hdelivers : PollDelivers s ⟨poll, payload, sum, answers⟩ := hpoll _ rfl
  refine ⟨⟨poll, payload, sum, answers⟩, transferStep s, exec_step_of_index_lt hindex, hlen, hans, ?_⟩
  rw [hdelivers.attempts_iff]
  by_cases hrun : RunsAttempt s
  · obtain ⟨hsized, hprefix, hregs, htrace, hnextP, hnextS⟩ := hattempt _ hlen hdelivers rfl rfl rfl
    obtain ⟨hkeepP, hkeepS, hverdict⟩ := hout.verdict hrun
    rw [hregs, htrace] at hverdict
    exact ⟨hkeepP.trans hnextP, fun hno => absurd hrun hno, fun _ => ⟨hsized, hprefix, hkeepS.trans hnextS, hverdict⟩⟩
  · obtain ⟨-, hstart⟩ := not_or.1 hrun
    have hno : ¬Delivery.Starts s ⟨poll, payload, sum, answers⟩ := mt hdelivers.starts_iff.1 hstart
    have hpolled : transferStep s = pollAndStart s := by
      rw [transferStep_of_no_attempt hrun, pollAndStart_of_no_start hstart]
    obtain ⟨hregs, htrace, hnextP, hnextS⟩ := hdelivers
    rw [Delivery.startedRegs, if_neg hno] at hregs
    rw [Delivery.assertEvents, if_neg hno, List.append_nil] at htrace
    rw [hpolled]
    exact ⟨hnextP, fun _ => ⟨hregs, htrace, hnextS⟩, fun h => absurd h hrun⟩

end Sys2Proof.Machine
end

section
/-! How many events of each kind a `step` command makes (42_sequencer.md R143): the tally of each phase, added up. -/

namespace Sys2Proof.Machine

/-- Two tallies added kind by kind. -/
def Tally.plus (x y : Tally) : Tally where
  pulse := x.pulse + y.pulse
  rdP := x.rdP + y.rdP
  weSet := x.weSet + y.weSet
  rdS := x.rdS + y.rdS
  memW := x.memW + y.memW
  memR := x.memR + y.memR
  weClr := x.weClr + y.weClr

/-- The events of all kinds. -/
def Tally.total (x : Tally) : Nat := x.pulse + x.rdP + x.weSet + x.rdS + x.memW + x.memR + x.weClr

theorem Tally.zero_plus (x : Tally) : Tally.plus {} x = x := by simp [Tally.plus]

theorem Tally.plus_assoc (x y z : Tally) : (x.plus y).plus z = x.plus (y.plus z) := by simp [Tally.plus, Nat.add_assoc]

theorem Tally.total_plus (x y : Tally) : (x.plus y).total = x.total + y.total := by
  simp only [Tally.total, Tally.plus]
  omega

theorem tally_cons (ev : Event) (evs : List Event) : tally (ev :: evs) = (tally [ev]).plus (tally evs) := by
  cases ev <;> simp [tally, Tally.plus, Nat.add_comm]

theorem tally_append (pre post : List Event) : tally (pre ++ post) = (tally pre).plus (tally post) := by
  induction pre with
  | nil => exact (Tally.zero_plus _).symm
  | cons ev pre ih => rw [List.cons_append, tally_cons, ih, tally_cons ev pre, Tally.plus_assoc]

theorem length_eq_tally_total (evs : List Event) : evs.length = (tally evs).total := by
  induction evs with
  | nil => rfl
  | cons ev evs ih =>
    have hone : (tally [ev]).total = 1 := by cases ev <;> rfl
    rw [tally_cons, Tally.total_plus, hone, ← ih, List.length_cons, Nat.add_comm]

/-- Each row of R143 gives the kinds, and with them the number of all. -/
theorem tally_and_length {evs : List Event} {x : Tally} (h : tally evs = x) : tally evs = x ∧ evs.length = x.total :=
  ⟨h, by rw [length_eq_tally_total, h]⟩

/-! The phases. -/

theorem tally_map_rdP (bits : List Bool) : tally (bits.map .rdP) = { rdP := bits.length } := by
  induction bits with
  | nil => rfl
  | cons b bits ih => simp [tally, ih]

theorem tally_map_rdS (bits : List Bool) : tally (bits.map .rdS) = { rdS := bits.length } := by
  induction bits with
  | nil => rfl
  | cons b bits ih => simp [tally, ih]

theorem tally_replicate_weSet (n : Nat) : tally (List.replicate n .weSet) = { weSet := n } := by
  induction n with
  | zero => rfl
  | succ n ih => simp [List.replicate_succ, tally, ih]

theorem tally_payloadEvents {n : Nat} {payload : List (List Bool)} (h : ∀ bits ∈ payload, bits.length = n) (a : Nat) :
    tally (payloadEvents a payload) = { rdS := n * payload.length, memW := payload.length } := by
  induction payload generalizing a with
  | nil => rfl
  | cons bits payload ih =>
    rw [payloadEvents, tally_append, tally_map_rdS, tally_cons, ih (fun b hb => h b (by simp [hb])), h bits (by simp)]
    simp [Tally.plus, tally, Nat.mul_add, Nat.add_comm]

theorem tally_readBackEvents (answers : List Byte) : ∀ a, tally (readBackEvents a answers) = { memR := answers.length } := by
  induction answers with
  | nil => exact fun _ => rfl
  | cons v answers ih => intro a; simp [readBackEvents, tally, ih]

section
variable {c : Config} {d : Delivery}

theorem tally_pollEvents (hlatch : c.primaryPollLatch = true) (hlen : d.poll.length = c.lit.pollBits) :
    tally (pollEvents c d) = { pulse := 1, rdP := c.lit.pollBits } := by
  rw [pollEvents, tally_append, tally_map_rdP, hlen, hlatch]
  simp [tally, Tally.plus]

theorem tally_attemptEvents (hsrc : c.crcSource = .readback) (hsized : d.Sized c) (i : Nat) :
    tally (attemptEvents c i d) =
      { pulse := 1
        rdS := c.lit.payloadReadBits * c.lit.blockBytes + c.lit.checksumReadBits
        memW := c.lit.blockBytes
        memR := c.lit.blockBytes } := by
  obtain ⟨-, hpayload, hbits, hsum, hanswers, -⟩ := hsized
  rw [attemptEvents, List.cons_append, List.cons_append, tally_cons, tally_append, tally_append, tally_payloadEvents hbits,
    tally_map_rdS, tally_readBackEvents, hpayload, hsum, hanswers hsrc]
  simp [tally, Tally.plus]

theorem tally_assertEvents (s : State) (d : Delivery) :
    tally (d.assertEvents s) = { weSet := if d.Starts s then s.cfg.lit.weAssertCount else 0 } := by
  unfold Delivery.assertEvents
  split
  · exact tally_replicate_weSet _
  · rfl

end

/-- The result of an attempt and the events of its verdict (R139, R140). -/
inductive VerdictEvents : LastResult → List Event → Prop
  | retry : VerdictEvents .retry [.pulse]
  | accept : VerdictEvents .accepted []
  | complete : VerdictEvents .complete [.weClr]

/-- The events of a command that runs an attempt. -/
abbrev Delivery.iterationEvents (s : State) (d : Delivery) (verdict : List Event) : List Event :=
  pollEvents s.cfg d ++ d.assertEvents s ++ attemptEvents s.cfg s.regs.index.toNat d ++ verdict

/-- The events of a command, by its result. -/
theorem exec_step_events {s t : State} (hexec : exec .step s = .next t) :
    ∃ d : Delivery, d.poll.length = s.cfg.lit.pollBits ∧
      ((t.regs.last = .none ∧ t.env.trace = s.env.trace ++ pollEvents s.cfg d) ∨
        (d.Attempts s ∧ d.Sized s.cfg ∧
          ∃ verdict, VerdictEvents t.regs.last verdict ∧ t.env.trace = s.env.trace ++ d.iterationEvents s verdict)) := by
  obtain ⟨hindex, -⟩ := exec_step_next hexec
  obtain ⟨d, u, hexec', hlen, -, -, hpolled, hattempted⟩ := stepCommandIsOneIteration s hindex
  obtain rfl : u = t := by
    rw [hexec] at hexec'
    injection hexec' with h
    exact h.symm
  refine ⟨d, hlen, ?_⟩
  by_cases hrun : d.Attempts s
  · obtain ⟨hsized, -, -, hretry, haccept, hcomplete⟩ := hattempted hrun
    refine .inr ⟨hrun, hsized, ?_⟩
    by_cases hsum : d.localSum s.cfg = wordOfBits d.sum
    · by_cases hnext : s.regs.index.toNat + 1 = s.cfg.lit.nBlocks
      · obtain ⟨hregs, htrace⟩ := hcomplete hsum hnext
        exact ⟨[.weClr], hregs ▸ .complete, by simp only [htrace, List.append_assoc]⟩
      · obtain ⟨hregs, htrace⟩ := haccept hsum hnext
        exact ⟨[], hregs ▸ .accept, by simp only [htrace, List.append_assoc, List.append_nil]⟩
    · obtain ⟨hregs, htrace⟩ := hretry hsum
      exact ⟨[.pulse], hregs ▸ .retry, by simp only [htrace, List.append_assoc]⟩
  · obtain ⟨hregs, htrace, -⟩ := hpolled hrun
    exact .inl ⟨by rw [hregs]; rfl, htrace⟩

/-- The tally of a command that runs an attempt, with the document's constants. -/
theorem tally_iterationEvents {s : State} {d : Delivery} (hdoc : s.cfg.lit = Literals.document)
    (hlatch : s.cfg.primaryPollLatch = true) (hsrc : s.cfg.crcSource = .readback)
    (hlen : d.poll.length = s.cfg.lit.pollBits) (hsized : d.Sized s.cfg) (verdict : List Event) :
    tally (d.iterationEvents s verdict) =
      Tally.plus { pulse := 2, rdP := 16, weSet := if d.Starts s then 15 else 0, rdS := 528, memW := 64, memR := 64 }
        (tally verdict) := by
  rw [tally_append, tally_append, tally_append, tally_pollEvents hlatch hlen, tally_assertEvents,
    tally_attemptEvents hsrc hsized, hdoc]
  simp [Tally.plus, Literals.document]

/-- Settles O40: `LAST` tells the verdict, and an attempt made from Idle follows a start. -/
theorem stepEventTally : Obligations.StepEventTally := by
  intro s t hdoc hlatch hsrc hexec
  obtain ⟨d, hlen, ⟨hlast, htrace⟩ | ⟨hrun, hsized, verdict, hverdict, htrace⟩⟩ := exec_step_events hexec
  · have htally := tally_pollEvents hlatch hlen
    rw [hdoc] at htally
    rw [hlast]
    exact ⟨_, htrace, fun _ => tally_and_length htally, fun _ => nofun, fun _ => nofun, fun _ => nofun, fun _ => nofun,
      fun _ => nofun⟩
  · have htally := tally_iterationEvents hdoc hlatch hsrc hlen hsized verdict
    have hidle (hm : s.regs.mode = .idle) : tally (d.iterationEvents s verdict) =
        Tally.plus { pulse := 2, rdP := 16, weSet := 15, rdS := 528, memW := 64, memR := 64 } (tally verdict) := by
      rw [htally, if_pos (hrun.resolve_left (by simp [hm]))]
    have hbusy (hm : s.regs.mode = .transferring) : tally (d.iterationEvents s verdict) =
        Tally.plus { pulse := 2, rdP := 16, rdS := 528, memW := 64, memR := 64 } (tally verdict) := by
      rw [htally, if_neg (by simp [hm])]
    refine ⟨_, htrace, ?_⟩
    generalize t.regs.last = last at hverdict ⊢
    cases hverdict with
    | retry =>
      exact ⟨nofun, fun _ => nofun, fun hm _ => tally_and_length (hidle hm), fun _ => nofun,
        fun hm _ => tally_and_length (hbusy hm), fun _ => nofun⟩
    | accept =>
      exact ⟨nofun, fun hm _ => tally_and_length (hidle hm), fun _ => nofun, fun hm _ => tally_and_length (hbusy hm),
        fun _ => nofun, fun _ => nofun⟩
    | complete =>
      exact ⟨nofun, fun _ => nofun, fun _ => nofun, fun _ => nofun, fun _ => nofun,
        fun hm _ => tally_and_length (hbusy hm)⟩

end Sys2Proof.Machine
end

section
/-! A whole transfer (42_sequencer.md R146 item 2): by induction over its blocks, each command before the last accepts its block
and opens the next. -/

namespace Sys2Proof.Machine

/-! The de-assertion comes with the completion only. -/

theorem pollAndStart_no_weClr (s : State) : Env.Reaches s.cfg (· ≠ .weClr) s.env (pollAndStart s).env := by
  have hpoll : Env.Reaches s.cfg (· ≠ .weClr) s.env (pollLine s.cfg s.env).2 :=
    (pollLine_reaches s.cfg s.env).mono fun _ ⟨_, hclr, _⟩ => hclr
  rw [pollAndStart_eq]
  split
  · exact hpoll.trans ((Env.weSetTimes_reaches s.cfg _ _).mono fun _ hset => hset ▸ nofun)
  · exact hpoll

theorem attempted_no_weClr {s : State} (hs : s.regs.index.toNat < s.cfg.lit.nBlocks) :
    Env.Reaches s.cfg (· ≠ .weClr) s.env (attempted s).env := by
  have hattempt := (receiveBlock_reaches (s := pollAndStart s) (by simpa using hs)).mono
    (Q := (· ≠ .weClr)) fun _ ⟨_, hclr, _⟩ => hclr
  rw [pollAndStart_cfg] at hattempt
  exact (pollAndStart_no_weClr s).trans hattempt

/-- The state `s` stands before the attempt of block `k` of the transfer that begins at `s₀`. -/
structure BeforeBlock (s₀ s : State) (k : Nat) : Prop where
  cfg : s.cfg = s₀.cfg
  index : s.regs.index.toNat = k
  runs : RunsAttempt s
  trace : ∃ evs : List Event, s.env.trace = s₀.env.trace ++ evs ∧ .weClr ∉ evs

section
variable {s₀ s t : State} {k : Nat} (h : BeforeBlock s₀ s k) (hexec : exec .step s = .next t)
include h hexec

theorem BeforeBlock.trace_attempted :
    ∃ evs : List Event, (attempted s).env.trace = s₀.env.trace ++ evs ∧ .weClr ∉ evs := by
  obtain ⟨hindex, -⟩ := exec_step_next hexec
  obtain ⟨evs, htrace, hevs⟩ := h.trace
  obtain ⟨more, hattempted, hmore⟩ := (attempted_no_weClr hindex).trace_not_mem
  exact ⟨evs ++ more, by rw [hattempted, htrace, List.append_assoc], by simp [hevs, hmore]⟩

theorem BeforeBlock.last_ne_none : t.regs.last ≠ .none := fun hlast =>
  (exec_step_outcome hexec).last_eq_none_iff.1 hlast h.runs

variable (hsum : t.regs.rxcrc = t.regs.lcrc)
include hsum

/-- A good block that is not the last one opens the next (R140). -/
theorem BeforeBlock.accept (hk : k + 1 ≠ s₀.cfg.lit.nBlocks) :
    BeforeBlock s₀ t (k + 1) ∧ t.regs.mode = .transferring := by
  obtain ⟨haccept, -⟩ := matchAdvancesOrCompletes s t hexec (h.last_ne_none hexec) hsum.symm
  rw [h.cfg, h.index] at haccept
  obtain ⟨hindex, -, hmode, htrace⟩ := haccept hk
  exact ⟨⟨(exec_cfg hexec).trans h.cfg, hindex, .inl hmode, htrace ▸ h.trace_attempted hexec⟩, hmode⟩

/-- The last good block ends the transfer (R140). -/
theorem BeforeBlock.complete (hk : k + 1 = s₀.cfg.lit.nBlocks) :
    t.regs.mode = .idle ∧ t.regs.we = false ∧ t.regs.last = .complete ∧ t.regs.index = 0 ∧
      t.regs.bstart.toNat = s₀.cfg.plat.destBase + s₀.cfg.lit.blockBytes * k ∧
      ∃ evs : List Event, t.env.trace = s₀.env.trace ++ evs ++ [.weClr] ∧ .weClr ∉ evs := by
  obtain ⟨-, hcomplete⟩ := matchAdvancesOrCompletes s t hexec (h.last_ne_none hexec) hsum.symm
  rw [h.cfg, h.index] at hcomplete
  obtain ⟨hindex, hlast, hmode, hwe, htrace⟩ := hcomplete hk
  obtain ⟨-, -, hbstart⟩ := (exec_step_outcome hexec).attempt_results h.runs
  obtain ⟨evs, hattempted, hevs⟩ := h.trace_attempted hexec
  refine ⟨hmode, hwe, hlast, hindex, ?_, evs, by rw [htrace, hattempted], hevs⟩
  rw [hbstart, h.cfg, h.index, blockStart_toNat s₀.cfg (by omega), address_eq]

end

/-- A start from block 0 opens it in the same command (D10). -/
theorem beforeBlock_zero {s t : State} (hmode : s.regs.mode = .idle) (hindex : s.regs.index = 0)
    (hexec : exec .step s = .next t) (hpoll : t.regs.poll = s.cfg.plat.startPattern) : BeforeBlock s s 0 where
  cfg := rfl
  index := by rw [hindex]; rfl
  runs := .inr ⟨hmode, by rw [← hpoll, (exec_step_outcome hexec).poll_eq]⟩
  trace := ⟨[], by simp, by simp⟩

/-- Settles O59, by induction on the number of blocks accepted. -/
theorem transferCompletesAfterNBlocks : Obligations.TransferCompletesAfterNBlocks := by
  intro run hmode hindex hexec hpoll hsum
  have hpos := nBlocks_pos (run 0).cfg
  have hbefore : ∀ k, k < (run 0).cfg.lit.nBlocks → BeforeBlock (run 0) (run k) k := by
    intro k
    induction k with
    | zero => exact fun _ => beforeBlock_zero hmode hindex (hexec 0 hpos) hpoll
    | succ k ih =>
      intro hk
      have hk' : k < (run 0).cfg.lit.nBlocks := by omega
      exact ((ih hk').accept (hexec k hk') (hsum k hk') (by omega)).1
  refine ⟨fun k hfirst hk => ?_, ?_⟩
  · obtain ⟨j, rfl⟩ : ∃ j, k = j + 1 := ⟨k - 1, by omega⟩
    have hj : j < (run 0).cfg.lit.nBlocks := by omega
    obtain ⟨hnext, hbusy⟩ := (hbefore j hj).accept (hexec j hj) (hsum j hj) (by omega)
    exact ⟨hbusy, hnext.index⟩
  · obtain ⟨m, hm⟩ : ∃ m, (run 0).cfg.lit.nBlocks = m + 1 := ⟨_, (Nat.succ_pred_eq_of_pos hpos).symm⟩
    have hlast : m < (run 0).cfg.lit.nBlocks := by omega
    have hdone := (hbefore m hlast).complete (hexec m hlast) (hsum m hlast) hm.symm
    rw [hm]
    exact hdone

end Sys2Proof.Machine
end

section
/-! The control commands (43_control.md R160 and R161): what each leaves, and the operand check both share with every form N row. -/

namespace Sys2Proof.Machine

/-- A row of form N refuses every `ARG` but 0 (30_encoding.md R71). -/
theorem argRefused_of_form_none {op : Byte} {i : Instr} (hform : ∀ arg, decodeOp op arg = decodeForm .none arg i) :
    ArgRefused op := by
  refine argRefused_of_rows fun {arg j} row => ?_
  have hdecode : decodeForm .none arg i = .ok j := hform arg ▸ decodeOp_ok_iff.2 row
  obtain ⟨harg, -⟩ := decodeForm_ok.1 hdecode
  exact argMatches_none_iff.1 harg

theorem exec_nop (s : State) : exec .nop s = .next s := rfl

theorem exec_clrerr (s : State) : exec .clrerr s = .next (s.withErrc none) := rfl

theorem State.withErrc_eq_self {s : State} {e : Option CmdError} (h : s.regs.errc = e) : s.withErrc e = s := by
  subst h
  rfl

/-- `ERR` is 0 with `ERRC` (R35). -/
theorem errBit_of_none {r : Regs} (h : r.errc = none) : r.errBit = 0 := by
  rw [Regs.errBit, errcBits_of_none h]
  rfl

/-- Settles O19. -/
theorem nopDoesNothing : Obligations.NopDoesNothing :=
  ⟨exec_nop, decodeCommand_ok_iff.2 .nop, argRefused_of_form_none fun _ => rfl⟩

/-- Settles O20: the one field that `clrerr` writes holds no error afterwards, and where it held none before, the write is of
the value it has. -/
theorem clrerrClearsTheRecord : Obligations.ClrerrClearsTheRecord := by
  refine ⟨exec_clrerr, fun s t hexec => ?_, fun s hnone => ?_, decodeCommand_ok_iff.2 .clrerr,
    argRefused_of_form_none fun _ => rfl⟩
  · rw [exec_clrerr] at hexec
    obtain rfl := Host.Outcome.next.inj hexec
    have hcleared : (s.withErrc none).regs.errc = none := rfl
    exact ⟨errcBits_of_none hcleared, errBit_of_none hcleared⟩
  · rw [exec_clrerr, State.withErrc_eq_self hnone]

end Sys2Proof.Machine
end

section
/-! The command errors (60_exceptions.md R171, R173, R175, R182): the first recorded code stands until `clrerr` or a device reset,
and the checks of a write to `CMD` in their order. -/

namespace Sys2Proof.Machine

/-! Recording and keeping an error (R171, R175). -/

theorem raiseCmdError_of_recorded {s : State} (h : s.regs.errc ≠ none) (c : CmdError) : raiseCmdError c s = s := by
  obtain ⟨hnone, -⟩ | ⟨-, -, hsame⟩ := raiseCmdError_cases c s
  · exact absurd hnone h
  · exact hsame

theorem raiseCmdError_of_none {s : State} (h : s.regs.errc = none) (c : CmdError) : raiseCmdError c s = s.withErrc (some c) := by
  rw [raiseCmdError_eq, h]
  rfl

/-- Settles O14. -/
theorem firstErrorStands : Obligations.FirstErrorStands := fun _ c =>
  ⟨fun hnone => raiseCmdError_of_none hnone c, fun hrec => raiseCmdError_of_recorded hrec c, rfl, rfl, rfl, rfl⟩

/-- Settles O8. -/
theorem stepWithoutInputIsIdle : Obligations.StepWithoutInputIsIdle := fun _ => step_of_host_nil

section
variable {s t : State} {c : CmdError} (hrec : s.regs.errc = some c)
include hrec

theorem raiseCmdError_keeps_errc (d : CmdError) : (raiseCmdError d s).regs.errc = some c := by
  rw [raiseCmdError_of_recorded (by simp [hrec]), hrec]

theorem readWindow_keeps_errc (off : Offset) (width : Nat) : (readWindow off width s).regs.errc = some c := by
  unfold readWindow
  dsimp only
  split
  · exact hrec
  · exact raiseCmdError_keeps_errc hrec .badAccess

theorem whenIdle_keeps_errc {run : State} (hrun : run.regs.errc = some c) : (whenIdle s run).regs.errc = some c := by
  unfold whenIdle
  split
  · exact raiseCmdError_keeps_errc hrec .linkBusy
  · exact hrun

theorem countedRead_keeps_errc (ep : Endpoint) (n : BitVec 5) : (countedRead ep n s).regs.errc = some c := by
  unfold countedRead
  split
  · exact whenIdle_keeps_errc hrec hrec
  · exact raiseCmdError_keeps_errc hrec .badArg

/-- Every instruction but `clrerr` leaves a recorded error as it is (R175). -/
theorem exec_keeps_errc {i : Instr} (hi : i ≠ .clrerr) (h : exec i s = .next t) : t.regs.errc = some c := by
  cases i with
  | clrerr => exact absurd rfl hi
  | step =>
    obtain ⟨-, herrc, -⟩ := stepCommandFrame s t h
    exact herrc.trans hrec
  | nop | crcInit | crcByte | wrCrc => cases h; exact hrec
  | pulse => cases h; exact whenIdle_keeps_errc hrec hrec
  | readp n => cases h; exact countedRead_keeps_errc hrec .primary n
  | reads n => cases h; exact countedRead_keeps_errc hrec .secondary n
  | reserved => cases h; exact raiseCmdError_keeps_errc hrec .reservedOp

end

/-- The one host write that is `clrerr` is that of the word 0x0007 to `CMD` (30_encoding.md R72). -/
theorem decodeWrite_clrerr {off : Offset} {v : Word} (h : decodeWrite off v = .ok .clrerr) : off = 0x00 ∧ v = 0x0007 := by
  obtain ⟨hoff, hv⟩ := Prod.mk.inj (encodeOfDecode off v .clrerr h)
  exact ⟨hoff.symm, hv.symm⟩

theorem step_of_clrerr {s : State} {rest : List HostInput} (h : CommandPending s 0x0007 rest) :
    step s = .next ((s.withHost rest).withErrc none) :=
  (step_of_opcodeRow h .clrerr).trans (exec_clrerr _)

theorem step_of_isReset {s : State} {i : HostInput} {rest : List HostInput} (h : s.host = i :: rest) (hi : i.isReset = true) :
    step s = .next (deviceReset (s.withHost rest)) := by
  rw [step_head h]
  cases i with
  | access a => cases hi
  | reset | cutShort => rfl

/-- Settles O15: of the steps there are, only a device reset and the instruction `clrerr` clear the record, and that instruction is
the one word 0x0007. -/
theorem onlyClrerrAndResetClearErrors : Obligations.OnlyClrerrAndResetClearErrors := by
  refine ⟨fun s t c hrec hstep => ?_, fun s rest hpending => ⟨_, step_of_clrerr hpending, rfl⟩,
    fun s i rest hhost hi => ⟨_, step_of_isReset hhost hi, rfl⟩⟩
  obtain ⟨-, rfl⟩ | ⟨i, rest, hhost, hi, rfl⟩ | ⟨off, width, rest, -, rfl⟩ | ⟨-, -, -, rest, d, -, rfl⟩ |
    ⟨off, v, rest, i, hhost, hdecode, hexec⟩ := step_next_cases hstep
  · exact .inl hrec
  · exact .inr ⟨rfl, rest, .inr ⟨i, hhost, hi⟩⟩
  · exact .inl (readWindow_keeps_errc (s := s.withHost rest) hrec off width)
  · exact .inl (raiseCmdError_keeps_errc (s := s.withHost rest) hrec d)
  · by_cases hi : i = .clrerr
    · subst hi
      obtain ⟨rfl, rfl⟩ := decodeWrite_clrerr hdecode
      cases hexec
      exact .inr ⟨rfl, rest, .inl hhost⟩
    · exact .inl (exec_keeps_errc (s := s.withHost rest) hrec hi hexec)

/-! The order of the checks (R173). -/

section
variable {op arg : Byte}

/-- The reserved opcodes have no operand check (30_encoding.md R71, R74). -/
theorem ArgIllegal.op_lt (h : ArgIllegal op arg) : op.toNat < 8 := by
  obtain ⟨rfl | rfl | rfl | rfl | rfl, -⟩ | ⟨rfl | rfl, -⟩ := h <;> decide

theorem OpcodeRow.not_argIllegal {i : Instr} (row : OpcodeRow op arg i) (hwf : i.wellFormed = true) : ¬ArgIllegal op arg := by
  cases row with
  | nop | crcInit | pulse | step | clrerr => simp [ArgIllegal]
  | crcByte b => simp [ArgIllegal]
  | readp n => simpa [ArgIllegal] using (countLegal_iff n).1 hwf
  | reads n => simpa [ArgIllegal] using (countLegal_iff n).1 hwf
  | reserved arg hop => exact fun hill => absurd hill.op_lt (Nat.not_lt_of_le hop)

theorem countedRead_of_transferring {n : BitVec 5} (hn : countLegal n = true) (ep : Endpoint) {s : State}
    (hbusy : s.regs.mode = .transferring) : countedRead ep n s = raiseCmdError .linkBusy s := by
  rw [countedRead_of_legal ((countLegal_iff_toNat n).1 hn), whenIdle_of_transferring hbusy]

/-- A link primitive with a legal operand is a row of the opcode map whose instruction is refused while Transferring
(30_encoding.md R73). -/
theorem exists_linkRow (hop : op = 0x03 ∨ op = 0x04 ∨ op = 0x05) (hlegal : ¬ArgIllegal op arg) :
    ∃ i, OpcodeRow op arg i ∧
      ∀ s : State, s.regs.mode = .transferring → exec i s = .next (raiseCmdError .linkBusy s) := by
  obtain ⟨hnone, hcount⟩ := not_or.1 hlegal
  obtain rfl | hread := hop
  · have harg : arg = 0 := by simpa using hnone
    exact ⟨.pulse, harg ▸ .pulse, fun s hbusy => congrArg _ (whenIdle_of_transferring hbusy _)⟩
  · obtain ⟨n, rfl, hn⟩ := arg_count_iff.1 (not_not.1 fun hill => hcount ⟨hread, hill⟩)
    obtain rfl | rfl := hread
    · exact ⟨.readp n, .readp n, fun s hbusy => congrArg _ (countedRead_of_transferring hn .primary hbusy)⟩
    · exact ⟨.reads n, .reads n, fun s hbusy => congrArg _ (countedRead_of_transferring hn .secondary hbusy)⟩

end

section
variable {s : State} {w : Word} {rest : List HostInput} (hpending : CommandPending s w rest)
include hpending

/-- An operand its form forbids is error 2 in both modes: the word is not executable, and its opcode is not reserved. -/
theorem step_of_argIllegal (hill : ArgIllegal (opField w) (argField w)) :
    step s = .next (raiseCmdError .badArg (s.withHost rest)) := by
  obtain ⟨-, -, hrefused⟩ := commandWordsPartition
  refine hrefused s w rest hpending hill.op_lt fun hexec => ?_
  obtain ⟨i, hd, hwf, -⟩ := (executableWord_iff w).1 hexec
  exact (decodeCommand_ok_iff.1 hd).not_argIllegal hwf hill

theorem step_of_link_busy (hop : opField w = 0x03 ∨ opField w = 0x04 ∨ opField w = 0x05)
    (hlegal : ¬ArgIllegal (opField w) (argField w)) (hbusy : s.regs.mode = .transferring) :
    step s = .next (raiseCmdError .linkBusy (s.withHost rest)) := by
  obtain ⟨i, row, hrefused⟩ := exists_linkRow hop hlegal
  rw [step_of_opcodeRow hpending row]
  exact hrefused (s.withHost rest) hbusy

end

/-- Settles O16: the access check comes before the decoder; an accepted write at `CMD` is a pending command word, and its opcode,
its operand and the mode decide in turn. -/
theorem errorPriority : Obligations.ErrorPriority := by
  intro s rest off width w hhost hoff
  refine ⟨fun hrefused => ?_, fun haccepted => ?_, fun c hrec => raiseCmdError_of_recorded (s := s.withHost rest) hrec c⟩
  · rw [step_write hhost, if_neg (by simp [hrefused])]
  · obtain ⟨rfl, -, -⟩ := (accessAccepted_iff off width).1 haccepted
    obtain rfl : off = 0x00 := hoff.resolve_right (by simp [haccepted])
    exact ⟨fun hop => step_of_opcodeRow hhost (.reserved _ hop), fun _ hill => step_of_argIllegal hhost hill,
      step_of_link_busy hhost⟩

end Sys2Proof.Machine
end

section
/-! Device reset, the way out of Transferring, and where the strobes and the assertions of a command stand
(70_reset_and_hazards.md R190, R191, R193 to R195, R198). -/

namespace Sys2Proof.Machine

/-- Settles O6: a device reset puts in the registers and the ports as they are at reset, whatever it cuts short. -/
theorem deviceResetClearsRegisters : Obligations.DeviceResetClearsRegisters := fun _ _ _ hhost hi =>
  ⟨_, step_of_isReset hhost hi, rfl, rfl, rfl, rfl, rfl, rfl, rfl, rfl⟩

/-! The way out of Transferring (R198). -/

/-- Of the outcomes of a `step` command given while Transferring only the completion is Idle. -/
theorem StepOutcome.completes_of_idle {s t : State} (hout : StepOutcome s t) (hbusy : s.regs.mode = .transferring)
    (hidle : t.regs.mode = .idle) :
    s.regs.index.toNat + 1 = s.cfg.lit.nBlocks ∧ t.regs.lcrc = t.regs.rxcrc ∧ t.regs.last = .complete := by
  cases hout with
  | noAttempt hno => exact absurd (.inl hbusy) hno
  | retry hrun | accept hrun => exact absurd ((pollAndStart_mode hrun).symm.trans hidle) nofun
  | complete _ hsum hlast => exact ⟨hlast, hsum, rfl⟩

/-- Settles O56: a step that is neither a device reset nor a `step` command keeps the mode. -/
theorem transferEndsOnlyByCompletionOrReset : Obligations.TransferEndsOnlyByCompletionOrReset := by
  intro s t hbusy hstep hidle
  have hmoved : t.regs.mode ≠ s.regs.mode := by simp [hbusy, hidle]
  obtain ⟨-, rfl⟩ | ⟨i, rest, hhost, hi, -⟩ | ⟨off, width, rest, -, rfl⟩ | ⟨-, -, -, rest, c, -, rfl⟩ |
    ⟨off, v, rest, i, hhost, hdecode, hexec⟩ := step_next_cases hstep
  · exact absurd rfl hmoved
  · exact .inl ⟨i, rest, hhost, hi⟩
  · exact absurd (readWindow_mode_we off width (s.withHost rest)).1 hmoved
  · exact absurd (raiseCmdError_mode_we c (s.withHost rest)).1 hmoved
  · by_cases hi : i = .step
    · subst hi
      obtain ⟨rfl, rfl⟩ := decodeWrite_step hdecode
      exact .inr ⟨⟨rest, hhost⟩, (exec_step_outcome hexec).completes_of_idle hbusy hidle⟩
    · exact absurd (exec_mode_we (s := s.withHost rest) hi hexec).1 hmoved

/-! The ports while Transferring (R195). -/

theorem whenIdle_env_of_transferring {s : State} (h : s.regs.mode = .transferring) (run : State) :
    (whenIdle s run).env = s.env := by
  rw [whenIdle_of_transferring h, raiseCmdError_env]

/-- A counted read is refused while Transferring, for its operand or for the mode. -/
theorem countedRead_env_of_transferring {s : State} (h : s.regs.mode = .transferring) (ep : Endpoint) (n : BitVec 5) :
    (countedRead ep n s).env = s.env := by
  unfold countedRead
  split
  · exact whenIdle_env_of_transferring h _
  · exact raiseCmdError_env .badArg s

/-- Settles O57: the link primitives are refused while Transferring, and no other instruction but `step` has a port. -/
theorem noHostStrobeWhileTransferring : Obligations.NoHostStrobeWhileTransferring := by
  intro i s t hbusy hi hexec
  cases i with
  | step => exact absurd rfl hi
  | nop | crcInit | crcByte | clrerr | wrCrc => cases hexec; rfl
  | pulse => cases hexec; exact whenIdle_env_of_transferring hbusy _
  | readp n => cases hexec; exact countedRead_env_of_transferring hbusy .primary n
  | reads n => cases hexec; exact countedRead_env_of_transferring hbusy .secondary n
  | reserved => cases hexec; exact raiseCmdError_env .reservedOp s

/-! The events around the assertions of a start (R193, R194). -/

theorem linkEvent_of_mem_pollEvents {c : Config} {d : Delivery} {ev : Event} (h : ev ∈ pollEvents c d) : LinkEvent ev := by
  obtain hpulse | hread := List.mem_append.1 h
  · obtain ⟨-, rfl⟩ : c.primaryPollLatch = true ∧ ev = .pulse := by simpa using hpulse
    exact linkEvent_pulse
  · obtain ⟨b, -, rfl⟩ := List.mem_map.1 hread
    exact linkEvent_readEvent .primary b

theorem weSet_not_mem_payloadEvents (payload : List (List Bool)) : ∀ a, .weSet ∉ payloadEvents a payload := by
  induction payload with
  | nil => simp [payloadEvents]
  | cons bits payload ih => simp [payloadEvents, ih]

theorem weSet_not_mem_readBackEvents (answers : List Byte) : ∀ a, .weSet ∉ readBackEvents a answers := by
  induction answers with
  | nil => simp [readBackEvents]
  | cons b answers ih => simp [readBackEvents, ih]

theorem VerdictEvents.weSet_not_mem {last : LastResult} {evs : List Event} (h : VerdictEvents last evs) : .weSet ∉ evs := by
  cases h <;> simp

/-- An attempt begins with the continue strobe, the reads of its first byte and the write of that byte, and asserts no latch
(42_sequencer.md R134, R136). -/
theorem attemptEvents_begin {c : Config} {d : Delivery} (hsized : d.Sized c) (i : Nat) :
    ∃ (bits : List Bool) (post : List Event),
      attemptEvents c i d = .pulse :: (bits.map .rdS ++ .memW (address c i) (byteOfBits bits) :: post) ∧
        bits.length = c.lit.payloadReadBits ∧ .weSet ∉ post := by
  obtain ⟨-, hpayload, hbits, -⟩ := hsized
  obtain ⟨hpos, -⟩ := c.sound
  obtain ⟨bits, rest, hcons⟩ := List.exists_cons_of_length_pos (hpayload ▸ hpos)
  refine ⟨bits, payloadEvents (address c i + 1) rest ++ d.sum.map .rdS ++ readBackEvents (address c i) d.answers, ?_,
    hbits bits (by simp [hcons]), by simp [weSet_not_mem_payloadEvents, weSet_not_mem_readBackEvents]⟩
  simp [attemptEvents, hcons, payloadEvents]

/-- A command that takes the start runs an attempt after it, and its events are those of the poll, the assertions, the attempt and
the verdict (42_sequencer.md R131, D10). -/
theorem exec_step_events_of_started {s t : State} (hexec : exec .step s = .next t) (hstarted : t.regs.started = true) :
    ∃ (d : Delivery) (verdict : List Event), d.Sized s.cfg ∧ VerdictEvents t.regs.last verdict ∧
      t.env.trace = s.env.trace ++ (pollEvents s.cfg d ++ List.replicate s.cfg.lit.weAssertCount .weSet ++
        attemptEvents s.cfg s.regs.index.toNat d ++ verdict) := by
  have hout := exec_step_outcome hexec
  have hstart : TakesStart s := hout.started_iff.1 hstarted
  obtain ⟨d, -, ⟨hlast, -⟩ | ⟨hrun, hsized, verdict, hverdict, htrace⟩⟩ := exec_step_events hexec
  · exact absurd (.inr hstart) (hout.last_eq_none_iff.1 hlast)
  · obtain ⟨hidle, -⟩ := hstart
    have hdelivered : d.Starts s := hrun.resolve_left (by simp [hidle])
    rw [Delivery.iterationEvents, Delivery.assertEvents, if_pos hdelivered] at htrace
    exact ⟨d, verdict, hsized, hverdict, htrace⟩

/-- Settles O36: the events before the assertions are those of the poll, and those after them begin as an attempt does. -/
theorem assertionsPrecedeWrites : Obligations.AssertionsPrecedeWrites := by
  intro s t hexec hstarted
  obtain ⟨d, verdict, hsized, hverdict, htrace⟩ := exec_step_events_of_started hexec hstarted
  obtain ⟨bits, post, hbegin, hlen, hpost⟩ := attemptEvents_begin hsized s.regs.index.toNat
  refine ⟨pollEvents s.cfg d, post ++ verdict, bits, address s.cfg s.regs.index.toNat, byteOfBits bits, ?_, hlen,
    fun ev hev => ?_, fun hset => ?_, by simp [hpost, hverdict.weSet_not_mem]⟩
  · rw [htrace, hbegin]
    simp only [List.append_assoc, List.cons_append]
  · obtain ⟨-, -, hmem⟩ := linkEvent_of_mem_pollEvents hev
    exact hmem
  · obtain ⟨hne, -⟩ := linkEvent_of_mem_pollEvents hset
    exact hne rfl

end Sys2Proof.Machine
end
